-- ==== Sys2Proof/Word.lean ====
section
/-! DEFINITION. Word: the bit-vector types of the core (R7, R9, R10) and the register index (R21, R25).
The arithmetic on them is that of `BitVec`: `+` and `-` wrap modulo 2^width (R10). -/

namespace Sys2Proof

/-- A 4-bit field of an instruction word (`u4`, R10, R60). -/
abbrev Nibble := BitVec 4

/-- The addressable unit of memory (`u8`, R7, R33). -/
abbrev Byte := BitVec 8

/-- An instruction word (`u16`, ILEN = 16, R7, R60). -/
abbrev HalfWord := BitVec 16

/-- A register value or the program counter (`u32`, XLEN = PCLEN = 32, R7, R10). -/
abbrev Word := BitVec 32

/-- A register index 0 to 15. Every 4-bit field names a valid register (R21, R25, R66). -/
abbrev Reg := Fin 16

end Sys2Proof
end

