-- ==== Sys2Proof/Config.lean ====
section
/-! DEFINITION. Config: the parameters of the core that R7 names and no encoding fixes. -/

namespace Sys2Proof

/-- The two shifts, as the first argument of `SHIFT_OVERSIZE` (R108). -/
inductive ShiftOp where
  | sll
  | srl
  deriving DecidableEq, Repr

/-- `MEM_SIZE`, the number of bytes of memory (R7, R33, D17). UNVERIFIED: the spec takes 256 from its
source unaudited (R8). Unsafe: see log 2. -/
abbrev Config.memSize : Nat := 256

/-- `SHIFT_OVERSIZE(op, value, amount)` (R7, R108, D6): the value that SLL or SRL writes when the shift amount
is 32 or more. It is a free value: no body, so nothing can be proved of it but that it is a `u32`.
DESIGN CHOICE (log 3): the extra argument `draw` numbers the draws, so that two equal shifts need not draw
equal values either (an unconstrained draw, under no law). -/
opaque Config.shiftOversize (op : ShiftOp) (value amount : Word) (draw : Nat) : Word

end Sys2Proof
end

