-- ==== Sys2Proof/Syntax.lean ====
section
/-! DEFINITION. Syntax: one constructor per row of spec/opcode_table.json, with the fields of the one format R4
(R60, R67). A field that names a register is a `Reg`; a field that R67 marks ignored is kept as bits (R68), so
that no bit of a word is lost. -/

namespace Sys2Proof

/-- The 13 rows of the opcode table (R67): the 11 instructions and the two rows of illegal opcodes (R69). -/
inductive Instr where
  /-- opcode 0 (R101) -/
  | add (rd rs1 rs2 : Reg)
  /-- opcode 1 (R102) -/
  | sub (rd rs1 rs2 : Reg)
  /-- opcode 2 (R103) -/
  | and (rd rs1 rs2 : Reg)
  /-- opcode 3 (R104) -/
  | or (rd rs1 rs2 : Reg)
  /-- opcode 4 (R105) -/
  | xor (rd rs1 rs2 : Reg)
  /-- opcode 5 (R106) -/
  | sll (rd rs1 rs2 : Reg)
  /-- opcode 6 (R107) -/
  | srl (rd rs1 rs2 : Reg)
  /-- opcode 7: `rd` destination, `rs1` address register, `rs2` ignored (R120, R68) -/
  | ldr (rd rs1 : Reg) (rs2 : Nibble)
  /-- opcode 8: `rd` address register, `rs1` data register, `rs2` ignored (R121, R68) -/
  | str (rd rs1 : Reg) (rs2 : Nibble)
  /-- opcode 9: `rd` target register, `rs1` and `rs2` compared (R140) -/
  | beq (rd rs1 rs2 : Reg)
  /-- opcode 10: all three fields ignored (R144, R68) -/
  | halt (rd rs1 rs2 : Nibble)
  /-- opcode 11, illegal: all three fields ignored (R69, R162) -/
  | illegalOpcode11 (rd rs1 rs2 : Nibble)
  /-- opcodes 12 to 15, illegal: the opcode is kept because the exception reports it; the three other
  fields are ignored (R69, R162) -/
  | illegalOpcodes12to15 (opcode rd rs1 rs2 : Nibble)
  deriving DecidableEq, Repr

/-- The row's mnemonic, as spec/opcode_table.json spells it. -/
def Instr.mnemonic : Instr → String
  | .add _ _ _ => "ADD"
  | .sub _ _ _ => "SUB"
  | .and _ _ _ => "AND"
  | .or _ _ _ => "OR"
  | .xor _ _ _ => "XOR"
  | .sll _ _ _ => "SLL"
  | .srl _ _ _ => "SRL"
  | .ldr _ _ _ => "LDR"
  | .str _ _ _ => "STR"
  | .beq _ _ _ => "BEQ"
  | .halt _ _ _ => "HALT"
  | .illegalOpcode11 _ _ _ => "illegal_opcode_11"
  | .illegalOpcodes12to15 _ _ _ _ => "illegal_opcodes_12-15"

/-! Pseudo-instructions (R73): each is the exact core instruction shown there. -/

/-- `NOP` = `OR R0, R0, R0` (R73). -/
def Instr.nop : Instr := .or 0 0 0

/-- `MOV Rd, Rs` = `OR Rd, Rs, Rs` (R73). -/
def Instr.mov (rd rs : Reg) : Instr := .or rd rs rs

/-- `CLR Rd` = `XOR Rd, Rd, Rd` (R73). -/
def Instr.clr (rd : Reg) : Instr := .xor rd rd rd

/-- `JMP Rt` = `BEQ Rt, R0, R0` (R73). -/
def Instr.jmp (rt : Reg) : Instr := .beq rt 0 0

end Sys2Proof
end

