-- ==== Sys2Proof/WellFormed.lean ====
section
/-! DEFINITION. WellFormed: which terms of `Instr` stand for a word of the opcode table. The types settle every
register and ignored field (R25, R66, R68); the one check is the opcode that the last row keeps. -/

namespace Sys2Proof

/-- The row `illegal_opcodes_12-15` holds opcodes 12 to 15 only (R67, R69). Every other term is well-formed. -/
def Instr.wellFormed : Instr → Bool
  | .add _ _ _ | .sub _ _ _ | .and _ _ _ | .or _ _ _ | .xor _ _ _ | .sll _ _ _ | .srl _ _ _ => true
  | .ldr _ _ _ | .str _ _ _ | .beq _ _ _ | .halt _ _ _ | .illegalOpcode11 _ _ _ => true
  | .illegalOpcodes12to15 opcode _ _ _ => decide (12 ≤ opcode.toNat)

/-- The canonical form of an instruction: 0 in every ignored field (R68). -/
def Instr.canonical : Instr → Instr
  | .ldr rd rs1 _ => .ldr rd rs1 0
  | .str rd rs1 _ => .str rd rs1 0
  | .halt _ _ _ => .halt 0 0 0
  | .illegalOpcode11 _ _ _ => .illegalOpcode11 0 0 0
  | .illegalOpcodes12to15 opcode _ _ _ => .illegalOpcodes12to15 opcode 0 0 0
  | .add rd rs1 rs2 => .add rd rs1 rs2
  | .sub rd rs1 rs2 => .sub rd rs1 rs2
  | .and rd rs1 rs2 => .and rd rs1 rs2
  | .or rd rs1 rs2 => .or rd rs1 rs2
  | .xor rd rs1 rs2 => .xor rd rs1 rs2
  | .sll rd rs1 rs2 => .sll rd rs1 rs2
  | .srl rd rs1 rs2 => .srl rd rs1 rs2
  | .beq rd rs1 rs2 => .beq rd rs1 rs2

end Sys2Proof
end

