-- ==== Sys2Proof/Decode.lean ====
section
/-! DEFINITION. Decode: from the bytes of memory to an instruction (R60 to R63, R67), and the encoder back (R63).
The opcode numbers (D1, log 1) stand here and nowhere else. -/

namespace Sys2Proof

/-! ### The four fields of a word (R60, R61) -/

/-- Bits 15..12 (R60). -/
def opcodeField (w : HalfWord) : Nibble := w.extractLsb' 12 4

/-- Bits 11..8 (R60). -/
def rdField (w : HalfWord) : Nibble := w.extractLsb' 8 4

/-- Bits 7..4 (R60). -/
def rs1Field (w : HalfWord) : Nibble := w.extractLsb' 4 4

/-- Bits 3..0 (R60). -/
def rs2Field (w : HalfWord) : Nibble := w.extractLsb' 0 4

/-- `encode(opcode, rd, rs1, rs2)`: the four fields packed, the opcode on top (R63). -/
def pack (opcode rd rs1 rs2 : Nibble) : HalfWord := opcode ++ rd ++ rs1 ++ rs2

/-- A field value `n` names register `Rn` (R66). -/
def regOf (f : Nibble) : Reg := ⟨f.toNat, f.isLt⟩

/-- The field that names a register. -/
def regField (r : Reg) : Nibble := BitVec.ofNat 4 r.val

/-! ### Decoding -/

/-- The instruction that four fields are (R67, R69, R83). Total: every opcode is in one row of the table. -/
def instrOfFields (opcode rd rs1 rs2 : Nibble) : Instr :=
  match opcode.toNat with
  | 0 => .add (regOf rd) (regOf rs1) (regOf rs2)
  | 1 => .sub (regOf rd) (regOf rs1) (regOf rs2)
  | 2 => .and (regOf rd) (regOf rs1) (regOf rs2)
  | 3 => .or (regOf rd) (regOf rs1) (regOf rs2)
  | 4 => .xor (regOf rd) (regOf rs1) (regOf rs2)
  | 5 => .sll (regOf rd) (regOf rs1) (regOf rs2)
  | 6 => .srl (regOf rd) (regOf rs1) (regOf rs2)
  | 7 => .ldr (regOf rd) (regOf rs1) rs2
  | 8 => .str (regOf rd) (regOf rs1) rs2
  | 9 => .beq (regOf rd) (regOf rs1) (regOf rs2)
  | 10 => .halt rd rs1 rs2
  | 11 => .illegalOpcode11 rd rs1 rs2
  | _ => .illegalOpcodes12to15 opcode rd rs1 rs2

/-- The instruction that a word is (R61, R82): its four fields, always an instruction. -/
def decodeWord (w : HalfWord) : Instr := instrOfFields (opcodeField w) (rdField w) (rs1Field w) (rs2Field w)

/-- Why bytes are no instruction. A whole word always decodes (R61, R82), so the one reason is a missing byte. -/
inductive DecodeError where
  /-- fewer than the 2 bytes every instruction has (R71) -/
  | truncated
  deriving DecidableEq, Repr

/-- The word in two bytes of memory, big-endian (R42, R62): the byte at the lower address is the high one. -/
def wordOfBytes (hi lo : Byte) : HalfWord := hi ++ lo

/-- The instruction at the head of a list of bytes, and the bytes after it (R62, R71). -/
def decodeBytes : List Byte → Except DecodeError (Instr × List Byte)
  | hi :: lo :: rest => .ok (decodeWord (wordOfBytes hi lo), rest)
  | _ => .error .truncated

/-! ### Encoding (R63, R67) -/

/-- The opcode number of an instruction (R67, D1). -/
def Instr.opcode : Instr → Nibble
  | .add _ _ _ => 0
  | .sub _ _ _ => 1
  | .and _ _ _ => 2
  | .or _ _ _ => 3
  | .xor _ _ _ => 4
  | .sll _ _ _ => 5
  | .srl _ _ _ => 6
  | .ldr _ _ _ => 7
  | .str _ _ _ => 8
  | .beq _ _ _ => 9
  | .halt _ _ _ => 10
  | .illegalOpcode11 _ _ _ => 11
  | .illegalOpcodes12to15 opcode _ _ _ => opcode

/-- The three operand fields of an instruction, in encoding order rd, rs1, rs2 (R60). -/
def Instr.operandFields : Instr → Nibble × Nibble × Nibble
  | .add rd rs1 rs2 | .sub rd rs1 rs2 | .and rd rs1 rs2 | .or rd rs1 rs2 | .xor rd rs1 rs2
  | .sll rd rs1 rs2 | .srl rd rs1 rs2 | .beq rd rs1 rs2 => (regField rd, regField rs1, regField rs2)
  | .ldr rd rs1 rs2 | .str rd rs1 rs2 => (regField rd, regField rs1, rs2)
  | .halt rd rs1 rs2 | .illegalOpcode11 rd rs1 rs2 | .illegalOpcodes12to15 _ rd rs1 rs2 => (rd, rs1, rs2)

/-- The word of an instruction (R63). -/
def encode (i : Instr) : HalfWord :=
  pack i.opcode i.operandFields.1 i.operandFields.2.1 i.operandFields.2.2

/-- The word of an instruction as bytes of memory, high byte first (R62). -/
def bytesOfWord (w : HalfWord) : List Byte := [w.extractLsb' 8 8, w.extractLsb' 0 8]

/-! ### The opcode table as data (spec/opcode_table.json) -/

/-- One row: the words `w` with `w & mask = value`. -/
structure TableRow where
  mnemonic : String
  mask : HalfWord
  value : HalfWord
  deriving DecidableEq, Repr

/-- Does the row hold the word? -/
def TableRow.holds (row : TableRow) (w : HalfWord) : Bool := w &&& row.mask == row.value

/-- The 13 rows of spec/opcode_table.json with their masks and match values. -/
def opcodeTable : List TableRow :=
  [ ⟨"ADD", 0xF000, 0x0000⟩, ⟨"SUB", 0xF000, 0x1000⟩, ⟨"AND", 0xF000, 0x2000⟩, ⟨"OR", 0xF000, 0x3000⟩,
    ⟨"XOR", 0xF000, 0x4000⟩, ⟨"SLL", 0xF000, 0x5000⟩, ⟨"SRL", 0xF000, 0x6000⟩, ⟨"LDR", 0xF000, 0x7000⟩,
    ⟨"STR", 0xF000, 0x8000⟩, ⟨"BEQ", 0xF000, 0x9000⟩, ⟨"HALT", 0xF000, 0xA000⟩,
    ⟨"illegal_opcode_11", 0xF000, 0xB000⟩, ⟨"illegal_opcodes_12-15", 0xC000, 0xC000⟩ ]

/-- The instruction the decoder reads from a table word `w` of `nbits` bits: the word is laid out in memory's
byte order and the bytes are given to the decoder. Bits at and above `nbits` are 0. -/
def decodeTableWord (nbits w : Nat) : Option Instr :=
  match decodeBytes (bytesOfWord (BitVec.ofNat 16 (w % 2 ^ nbits))) with
  | .ok (i, _) => some i
  | .error _ => none

end Sys2Proof
end

