-- ==== Sys2Proof/Machine/State.lean ====
section
/-! DEFINITION. Machine/State: the whole state of the core (R20 to R35), the reasons a step could stop without a
next state, and the state after reset. -/

namespace Sys2Proof.Machine

/-- The run state (R20, R31). `halted` and `faulted` are terminal (R31, R80). -/
inductive Status where
  | running
  | halted
  | faulted
  deriving DecidableEq, Repr

/-- The operation kind of an out-of-bounds access (`cause.access`, R31). -/
inductive Access where
  | fetch
  | load
  | store
  | program
  deriving DecidableEq, Repr

/-- The fault report (`cause`, R31, R161): the only exceptions the core raises. -/
inductive Cause where
  /-- an opcode 11 to 15 was dispatched (R162) -/
  | illegalOpcode (opcode : Nibble)
  /-- an access left memory; `addr` is its base byte address, a natural number (R163, R164, R165) -/
  | outOfBounds (access : Access) (addr : Nat)
  deriving DecidableEq, Repr

/-- Memory as data: the bytes that are not 0, each at its address, addresses strictly rising (`Memory.wf` in
Machine/Ops.lean). An address that is not listed reads as 0, the value R35 and R190 give every byte that no
program word covers. -/
abbrev Memory := List Host.Cell

/-- The state of the core: exactly the tuple of R20, and one field of the model's own. -/
structure State where
  /-- the register file R0 to R15 (R21); R0 is ordinary (R22) -/
  x : Vector Word 16
  /-- the program counter, a byte address (R26, R27) -/
  pc : Word
  /-- the one memory of code and data (R33, R40) -/
  mem : Memory
  /-- the run state (R31) -/
  status : Status
  /-- the fault report, present exactly when `status` is `faulted` (R20, R31) -/
  cause : Option Cause
  /-- THE MODEL'S OWN FIELD, no state of the core: how many values of `SHIFT_OVERSIZE` were drawn so far (R108,
  logs 3 and 4) -/
  draws : Nat
  deriving DecidableEq, Repr

/-- Reasons for a step to stop with no next state. There is none, and so no constructor: every exception of the
core is a transition to a state with `status = faulted`, whose whole contents the spec gives (R87, R160, log 5), and an
access outside memory is one of those (R48, R49). Raised by no definition; nothing is safe or unsafe about it. -/
inductive Fault where
  deriving DecidableEq, Repr

/-- Reasons to give an instruction no meaning. -/
inductive Refusal where
  /-- An instruction that `exec` has no meaning for yet, by its mnemonic. No arm of `exec` answers it: every row of the
  table has its meaning. Safe: a refusal proves nothing about the core. -/
  | notModelled (mnemonic : String)
  deriving DecidableEq, Repr

/-- The outcome of a step of this machine. -/
abbrev Outcome := Host.Outcome State Fault Refusal

/-- The machine right after reset: the state of R35 for a launch with no program words (R190, R191, R192, log 7).
`draws` is the model's own field and its 0 a DESIGN CHOICE (log 4). -/
def State.reset : State where
  x := Vector.replicate 16 0
  pc := 0
  mem := []
  status := .running
  cause := none
  draws := 0

end Sys2Proof.Machine
end

