-- ==== Sys2Proof/Machine/Ops.lean ====
section
/-! DEFINITION. Machine/Ops: the named operations on registers and memory that every instruction is written with,
fetch, and taking an exception. -/

namespace Sys2Proof.Machine

/-! ### Registers and the program counter -/

/-- `x[r]` as a source (R11, R23). No register is hardwired (R22) and no index is out of range (R25). -/
def State.reg (s : State) (r : Reg) : Word := s.x[r.val]

/-- `x[r] <- v` (R11, R85): one register, no other. -/
def State.setReg (s : State) (r : Reg) (v : Word) : State := { s with x := s.x.set r.val v }

/-- `pc <- target` (R11). -/
def State.setPc (s : State) (target : Word) : State := { s with pc := target }

/-- The memory replaced (the result of a store). -/
def State.setMem (s : State) (m : Memory) : State := { s with mem := m }

/-- The model's own counter after one draw of `SHIFT_OVERSIZE` (log 3). -/
def State.nextDraw (s : State) : State := { s with draws := s.draws + 1 }

/-! ### Bytes of memory -/

/-- The canonical form: addresses strictly rising, all below `MEM_SIZE` (R33, R40), and no listed byte equal to 0, what
an unlisted address reads as. -/
abbrev Memory.wf (m : Memory) : Prop :=
  m.Pairwise (fun c d => c.1 < d.1) ∧ ∀ c ∈ m, c.1 < Config.memSize ∧ c.2 ≠ 0

/-- `mem[a]`; an unlisted byte is 0 (R35, R190). The bounds are checked by the accesses below, not here. -/
def Memory.get : Memory → Nat → Byte
  | [], _ => 0
  | (b, v) :: rest, a => if b = a then v else Memory.get rest a

/-- The memory with nothing listed at `a`. -/
def Memory.erase : Memory → Nat → Memory
  | [], _ => []
  | (b, v) :: rest, a => if b = a then Memory.erase rest a else (b, v) :: Memory.erase rest a

/-- A listed byte put in its place among rising addresses. -/
def Memory.insert : Memory → Nat → Byte → Memory
  | [], a, v => [(a, v)]
  | (b, w) :: rest, a, v => if a < b then (a, v) :: (b, w) :: rest else (b, w) :: Memory.insert rest a v

/-- `mem[a] <- v` (R11, R43). Writing 0 unlists the byte, so that equal memories are equal data. -/
def Memory.set (m : Memory) (a : Nat) (v : Byte) : Memory :=
  if v = 0 then m.erase a else (m.erase a).insert a v

/-! ### Big-endian values (R42, R43, R44). The byte order is decided in `read16` and `write16` alone. -/

/-- Bytes `a` and `a + 1` as a big-endian value (R42). -/
def Memory.read16 (m : Memory) (a : Nat) : HalfWord := wordOfBytes (m.get a) (m.get (a + 1))

/-- Bytes `a` to `a + 3` as a big-endian value (R42, R45). -/
def Memory.read32 (m : Memory) (a : Nat) : Word := m.read16 a ++ m.read16 (a + 2)

/-- A 16-bit value into bytes `a` and `a + 1`, high byte first (R43, R191). -/
def Memory.write16 (m : Memory) (a : Nat) (v : HalfWord) : Memory :=
  (m.set a (v.extractLsb' 8 8)).set (a + 1) (v.extractLsb' 0 8)

/-- A 32-bit value into bytes `a` to `a + 3`, high byte first (R43). -/
def Memory.write32 (m : Memory) (a : Nat) (v : Word) : Memory :=
  (m.write16 a (v.extractLsb' 16 16)).write16 (a + 2) (v.extractLsb' 0 16)

/-! ### Checked accesses (R42, R43, R48, R49). Addresses are natural numbers: none wraps (R10, D3). -/

/-- All of the `n` bytes from `addr` on are in memory. -/
def inBounds (addr n : Nat) : Bool := decide (addr + n ≤ Config.memSize)

/-- `MemRead(addr, 2)` of an instruction fetch, at any alignment (R42, R47, R49). -/
def Memory.fetchWord (m : Memory) (addr : Nat) : Except Cause HalfWord :=
  if inBounds addr 2 then .ok (m.read16 addr) else .error (.outOfBounds .fetch addr)

/-- `MemRead(addr, 4)` of LDR, at any alignment (R42, R46, R48). -/
def Memory.loadWord (m : Memory) (addr : Nat) : Except Cause Word :=
  if inBounds addr 4 then .ok (m.read32 addr) else .error (.outOfBounds .load addr)

/-- `MemWrite(addr, 4, v)` of STR, at any alignment: all four bytes or none (R43, R46, R48, R50). -/
def Memory.storeWord (m : Memory) (addr : Nat) (v : Word) : Except Cause Memory :=
  if inBounds addr 4 then .ok (m.write32 addr v) else .error (.outOfBounds .store addr)

/-! ### Exceptions and halt -/

/-- `raise c` (R11, R87, R160): the core becomes `Faulted` with cause `c`. No register and no byte of memory changes, and
`pc` stays what it is when the exception is raised: `a + 2` after a fetch, `a` when the fetch itself fails (R86, R162,
R163, R164). Nothing is saved and no handler is entered (R169). There is no return from an exception (R170), and so no
operation for one. -/
def State.raise (s : State) (c : Cause) : State := { s with status := .faulted, cause := some c }

/-- `halt` (R11, R144): the core becomes `Halted`. -/
def State.halt (s : State) : State := { s with status := .halted }

/-! ### Fetch -/

/-- The address of an instruction plus its length (R71, R81). -/
def State.advance (s : State) : State := s.setPc (s.pc + 2)

/-- Fetch (R81): the word at `pc` and the state with `pc` moved past it, or the exception with `pc` unchanged (R163). -/
def State.fetch (s : State) : Except Cause (HalfWord × State) :=
  match s.mem.fetchWord s.pc.toNat with
  | .ok w => .ok (w, s.advance)
  | .error c => .error c

/-- The word `w` placed where the next step fetches (what `State.withFetchWord` does, log 8): at `pc`, big-endian. Where no
word can be fetched at `pc`, `pc` becomes 0, the entry point (R192); the core is made `Running` with no cause (R80). -/
def State.placeWord (s : State) (w : HalfWord) : State :=
  let pc := if inBounds s.pc.toNat 2 then s.pc else 0
  { s with pc := pc, mem := s.mem.write16 pc.toNat w, status := .running, cause := none }

end Sys2Proof.Machine
end

