-- ==== Sys2Proof/Machine/Operands.lean ====
section
/-! DEFINITION. Machine/Operands: the operand forms of R67 (R, A, T; the form W is `State.setReg`). Every operand is a
register named by a 4-bit field: there are no immediates, offsets or scaling (R65, R122). All are read from the state that
fetch leaves, before any write (R12, R84). -/

namespace Sys2Proof.Machine

/-- Form R: the value of a source register (R67, R84). -/
def sourceValue (r : Reg) (s : State) : Word := s.reg r

/-- Form A: the effective address, the whole `u32` in the register as a natural number (R67, R122, D3). -/
def effectiveAddress (r : Reg) (s : State) : Nat := (s.reg r).toNat

/-- Form T: the branch target, all 32 bits of the register, absolute and not rounded (R67, R141). -/
def branchTarget (r : Reg) (s : State) : Word := s.reg r

end Sys2Proof.Machine
end

