-- ==== Sys2Proof/Machine/Alu.lean ====
section
/-! DEFINITION. Machine/Alu: ADD, SUB, AND, OR, XOR, SLL, SRL (R100 to R109). `exec` runs after fetch, so that `pc` is
already `a + 2` (R27, R84) and none of these changes it (R100). -/

namespace Sys2Proof.Machine

/-! ### The values -/

/-- `(u + v) mod 2^32` (R101): the carry is dropped. -/
def addValue (u v : Word) : Word := u + v

/-- `(u - v) mod 2^32` (R102): the borrow is dropped. -/
def subValue (u v : Word) : Word := u - v

/-- Bitwise and (R103). -/
def andValue (u v : Word) : Word := u &&& v

/-- Bitwise inclusive or (R104). -/
def orValue (u v : Word) : Word := u ||| v

/-- Bitwise exclusive or (R105). -/
def xorValue (u v : Word) : Word := u ^^^ v

/-- The whole `u32` in the register is the shift amount, not its low 5 bits; 32 and above is oversized (R106, R107, R108). -/
def oversized (amount : Word) : Bool := decide (32 ≤ amount.toNat)

/-- A shift by less than 32: `(value * 2^n) mod 2^32` for SLL (R106), `floor(value / 2^n)` for SRL (R107). -/
def shiftInRange (op : ShiftOp) (value amount : Word) : Word :=
  match op with
  | .sll => value <<< amount.toNat
  | .srl => value >>> amount.toNat

/-! ### Shared operations -/

/-- Write-back of an ALU result (R85, R100): one register is written, last; no exception is raised. -/
def writeBack (rd : Reg) (v : Word) (s : State) : Outcome := .next (s.setReg rd v)

/-- A shift (R106, R107): in range it writes the shifted value; oversized it writes a free value and everything else is as
for a shift in range (R108), but that the model counts the draw (log 3). -/
def shiftWriteBack (op : ShiftOp) (rd rs1 rs2 : Reg) (s : State) : Outcome :=
  let value := sourceValue rs1 s
  let amount := sourceValue rs2 s
  if oversized amount then
    writeBack rd (Config.shiftOversize op value amount s.draws) s.nextDraw
  else
    writeBack rd (shiftInRange op value amount) s

/-! ### The instructions -/

/-- ADD (R101). -/
def execAdd (rd rs1 rs2 : Reg) (s : State) : Outcome :=
  writeBack rd (addValue (sourceValue rs1 s) (sourceValue rs2 s)) s

/-- SUB (R102). -/
def execSub (rd rs1 rs2 : Reg) (s : State) : Outcome :=
  writeBack rd (subValue (sourceValue rs1 s) (sourceValue rs2 s)) s

/-- AND (R103). -/
def execAnd (rd rs1 rs2 : Reg) (s : State) : Outcome :=
  writeBack rd (andValue (sourceValue rs1 s) (sourceValue rs2 s)) s

/-- OR (R104). -/
def execOr (rd rs1 rs2 : Reg) (s : State) : Outcome :=
  writeBack rd (orValue (sourceValue rs1 s) (sourceValue rs2 s)) s

/-- XOR (R105). -/
def execXor (rd rs1 rs2 : Reg) (s : State) : Outcome :=
  writeBack rd (xorValue (sourceValue rs1 s) (sourceValue rs2 s)) s

/-- SLL (R106, R108). -/
def execSll (rd rs1 rs2 : Reg) (s : State) : Outcome := shiftWriteBack .sll rd rs1 rs2 s

/-- SRL (R107, R108). -/
def execSrl (rd rs1 rs2 : Reg) (s : State) : Outcome := shiftWriteBack .srl rd rs1 rs2 s

end Sys2Proof.Machine
end

