-- ==== Sys2Proof/Machine/Flags.lean ====
section
/-! DEFINITION. Machine/Flags: the core has no flags, condition codes or predicates, and no instruction sets or reads one
(R30). The one condition it computes is BEQ's, directly from two registers. -/

namespace Sys2Proof.Machine

/-- The condition of BEQ: equality as 32-bit unsigned values (R30, R140). -/
def beqCondition (u v : Word) : Bool := u == v

end Sys2Proof.Machine
end

