-- ==== Sys2Proof/Machine/Control.lean ====
section
/-! DEFINITION. Machine/Control: BEQ and HALT (R140 to R145). No delay slot, no link (R142, R143). -/

namespace Sys2Proof.Machine

/-- BEQ (R140, R141): when the two registers are equal `pc` becomes the target as it is; otherwise it stays `a + 2`, where
fetch left it. Never an exception: a target that cannot be fetched faults at the next step. -/
def execBeq (rd rs1 rs2 : Reg) (s : State) : Outcome :=
  if beqCondition (sourceValue rs1 s) (sourceValue rs2 s) then .next (s.setPc (branchTarget rd s)) else .next s

/-- HALT (R144): `status <- Halted`; registers, memory and `pc = a + 2` are unchanged. -/
def execHalt (s : State) : Outcome := .next s.halt

end Sys2Proof.Machine
end

