-- ==== Sys2Proof/Machine/Illegal.lean ====
section
/-! DEFINITION. Machine/Illegal: the two rows of illegal opcodes (R69, R162): `IllegalOpcode(opcode)` with `pc = a + 2`,
where fetch left it, whatever the other fields hold. -/

namespace Sys2Proof.Machine

/-- Opcode 11 (R162). -/
def execIllegalOpcode11 (s : State) : Outcome := .next (s.raise (.illegalOpcode 11))

/-- Opcodes 12 to 15 (R162). -/
def execIllegalOpcodes12to15 (opcode : Nibble) (s : State) : Outcome := .next (s.raise (.illegalOpcode opcode))

end Sys2Proof.Machine
end

