-- ==== Sys2Proof/Machine/LoadStore.lean ====
section
/-! DEFINITION. Machine/LoadStore: LDR and STR (R120 to R123). Register indirect, no offset, 4 bytes, any alignment
(R46, R122); the field `rs2` is ignored (R68). -/

namespace Sys2Proof.Machine

/-- LDR (R120): `x[rd] <-` the big-endian word at the address in `x[rs1]`, or `OutOfBounds(load, ea)` with `x[rd]` not
written (R48, R164). -/
def execLdr (rd rs1 : Reg) (s : State) : Outcome :=
  match s.mem.loadWord (effectiveAddress rs1 s) with
  | .ok v => .next (s.setReg rd v)
  | .error c => .next (s.raise c)

/-- STR (R121): the word in `x[rs1]` to the address in `x[rd]`, big-endian, or `OutOfBounds(store, ea)` with no byte
written (R48, R164). -/
def execStr (rd rs1 : Reg) (s : State) : Outcome :=
  match s.mem.storeWord (effectiveAddress rd s) (sourceValue rs1 s) with
  | .ok m => .next (s.setMem m)
  | .error c => .next (s.raise c)

end Sys2Proof.Machine
end

