-- ==== Sys2Proof/Machine/Dispatch.lean ====
section
/-! DEFINITION. Machine/Dispatch: execute, dispatching on the instruction (R83). Its state is the one fetch leaves, with
`pc = a + 2` (R27, R84); only a step in `Running` calls it (R80, log 9). -/

namespace Sys2Proof.Machine

def exec (i : Instr) (s : State) : Host.Outcome State Fault Refusal :=
  match i with
  | .add rd rs1 rs2 => Sys2Proof.Machine.execAdd rd rs1 rs2 s
  | .sub rd rs1 rs2 => Sys2Proof.Machine.execSub rd rs1 rs2 s
  | .and rd rs1 rs2 => Sys2Proof.Machine.execAnd rd rs1 rs2 s
  | .or rd rs1 rs2 => Sys2Proof.Machine.execOr rd rs1 rs2 s
  | .xor rd rs1 rs2 => Sys2Proof.Machine.execXor rd rs1 rs2 s
  | .sll rd rs1 rs2 => Sys2Proof.Machine.execSll rd rs1 rs2 s
  | .srl rd rs1 rs2 => Sys2Proof.Machine.execSrl rd rs1 rs2 s
  | .ldr rd rs1 _ => Sys2Proof.Machine.execLdr rd rs1 s
  | .str rd rs1 _ => Sys2Proof.Machine.execStr rd rs1 s
  | .beq rd rs1 rs2 => Sys2Proof.Machine.execBeq rd rs1 rs2 s
  | .halt _ _ _ => Sys2Proof.Machine.execHalt s
  | .illegalOpcode11 _ _ _ => Sys2Proof.Machine.execIllegalOpcode11 s
  | .illegalOpcodes12to15 opcode _ _ _ => Sys2Proof.Machine.execIllegalOpcodes12to15 opcode s

end Sys2Proof.Machine
end

