-- ==== Sys2Proof/Machine/Step.lean ====
section
/-! DEFINITION. Machine/Step: the one step of the core (R80, R90): fetch, decode, execute, write-back. -/

namespace Sys2Proof.Machine

/-- One step (R90). In `Running`: fetch, then execute the decoded word in the state with `pc` past it; a fetch outside
memory raises its exception with `pc` unchanged (R163). In `Halted` and `Faulted` the core has no step (R80), and the host's
`step` is a no-op (R195): the state stays as it is (log 6). -/
def step (s : State) : Host.Outcome State Fault Refusal :=
  match s.status with
  | .running =>
    match s.fetch with
    | .ok (w, t) => exec (decodeWord w) t
    | .error c => .next (s.raise c)
  | .halted => .next s
  | .faulted => .next s

/-- The state whose very next step fetches and runs the table word `w` of `nbits` bits (log 8). -/
def State.withFetchWord (s : State) (nbits w : Nat) : State := s.placeWord (BitVec.ofNat 16 (w % 2 ^ nbits))

end Sys2Proof.Machine
end

