-- ==== Sys2Proof/Machine/Assembler.lean ====
section
/-! DEFINITION. Machine/Assembler: the assembler syntax of R72 and the pseudo-instructions of R73 (D13), from a line of
text to the one word it stands for. It is no part of the core's state or step. -/

namespace Sys2Proof.Machine

/-- A line of assembly (R72, R73). -/
inductive AsmLine where
  /-- `MNEMONIC Rd, Rs1, Rs2`, allowed for every instruction; the one form of ADD to SRL and BEQ (R72) -/
  | general (opcode : Nibble) (rd rs1 rs2 : Reg)
  /-- `LDR Rd, [Rs1]` (R72) -/
  | ldr (rd rs1 : Reg)
  /-- `STR [Rd], Rs1` (R72) -/
  | str (rd rs1 : Reg)
  /-- `HALT` (R72) -/
  | halt
  /-- `NOP` (R73) -/
  | nop
  /-- `MOV Rd, Rs` (R73) -/
  | mov (rd rs : Reg)
  /-- `CLR Rd` (R73) -/
  | clr (rd : Reg)
  /-- `JMP Rt` (R73) -/
  | jmp (rt : Reg)
  /-- `.word v` (R72) -/
  | word (v : HalfWord)
  deriving DecidableEq, Repr

/-- The word of a line: the encodings of R72's table, those of R73's pseudo-instructions, and a data word as it is. -/
def AsmLine.assemble : AsmLine → HalfWord
  | .general opcode rd rs1 rs2 => pack opcode (regField rd) (regField rs1) (regField rs2)
  | .ldr rd rs1 => encode (.ldr rd rs1 0)
  | .str rd rs1 => encode (.str rd rs1 0)
  | .halt => encode (.halt 0 0 0)
  | .nop => encode .nop
  | .mov rd rs => encode (.mov rd rs)
  | .clr rd => encode (.clr rd)
  | .jmp rt => encode (.jmp rt)
  | .word v => v

/-! ### Text (R72; the lexical details are log 15) -/

/-- The pieces of a line. -/
inductive Token where
  | name (cs : List Char)
  | comma
  | lbracket
  | rbracket
  deriving DecidableEq, Repr

/-- A finished name, in front of the tokens after it. -/
def endName (cs : List Char) (rest : List Token) : List Token :=
  if cs.isEmpty then rest else .name cs.reverse :: rest

/-- The tokens of a line; `acc` holds the name being read, last character first. -/
def tokens (acc : List Char) : List Char → Option (List Token)
  | [] => some (endName acc [])
  | c :: cs =>
    if c = ' ' then (tokens [] cs).map (endName acc)
    else if c = ',' then (tokens [] cs).map fun ts => endName acc (.comma :: ts)
    else if c = '[' then (tokens [] cs).map fun ts => endName acc (.lbracket :: ts)
    else if c = ']' then (tokens [] cs).map fun ts => endName acc (.rbracket :: ts)
    else if c.isAlphanum || c == '.' then tokens (c :: acc) cs
    else none

/-- A decimal digit. -/
def decDigit (c : Char) : Option Nat :=
  if '0'.toNat ≤ c.toNat ∧ c.toNat ≤ '9'.toNat then some (c.toNat - '0'.toNat) else none

/-- A hexadecimal digit. -/
def hexDigit (c : Char) : Option Nat :=
  if 'a'.toNat ≤ c.toNat ∧ c.toNat ≤ 'f'.toNat then some (c.toNat - 'a'.toNat + 10)
  else if 'A'.toNat ≤ c.toNat ∧ c.toNat ≤ 'F'.toNat then some (c.toNat - 'A'.toNat + 10)
  else decDigit c

/-- Digits in a base, most significant first; `acc` is the value so far. -/
def digitsValue (base : Nat) (digit : Char → Option Nat) (acc : Nat) : List Char → Option Nat
  | [] => some acc
  | c :: cs => (digit c).bind fun d => digitsValue base digit (acc * base + d) cs

/-- "Numbers are decimal, or hexadecimal with the `0x` prefix" (R72). -/
def numberOf : List Char → Option Nat
  | [] => none
  | '0' :: 'x' :: c :: cs => digitsValue 16 hexDigit 0 (c :: cs)
  | c :: cs => digitsValue 10 decDigit 0 (c :: cs)

/-- "Register names are `R0`–`R15`, in upper or lower case" (R72). -/
def regNameOf : List Char → Option Reg
  | [r, a] => if r = 'R' ∨ r = 'r' then (decDigit a).map fun n => Fin.ofNat 16 n else none
  | [r, '1', b] =>
    if r = 'R' ∨ r = 'r' then (decDigit b).bind fun n => if n ≤ 5 then some (Fin.ofNat 16 (10 + n)) else none
    else none
  | _ => none

/-- The opcode of a mnemonic (R67, R72). -/
def opcodeOfName (cs : List Char) : Option Nibble :=
  if cs = ['A', 'D', 'D'] then some 0
  else if cs = ['S', 'U', 'B'] then some 1
  else if cs = ['A', 'N', 'D'] then some 2
  else if cs = ['O', 'R'] then some 3
  else if cs = ['X', 'O', 'R'] then some 4
  else if cs = ['S', 'L', 'L'] then some 5
  else if cs = ['S', 'R', 'L'] then some 6
  else if cs = ['L', 'D', 'R'] then some 7
  else if cs = ['S', 'T', 'R'] then some 8
  else if cs = ['B', 'E', 'Q'] then some 9
  else if cs = ['H', 'A', 'L', 'T'] then some 10
  else none

/-- The line that tokens stand for (R72, R73). -/
def lineOf : List Token → Option AsmLine
  | [.name m] =>
    if m = ['H', 'A', 'L', 'T'] then some .halt else if m = ['N', 'O', 'P'] then some .nop else none
  | [.name m, .name a] =>
    if m = ['C', 'L', 'R'] then (regNameOf a).map .clr
    else if m = ['J', 'M', 'P'] then (regNameOf a).map .jmp
    else if m = ['.', 'w', 'o', 'r', 'd'] then
      (numberOf a).bind fun n => if n < 2 ^ 16 then some (.word (BitVec.ofNat 16 n)) else none
    else none
  | [.name m, .name a, .comma, .name b] =>
    if m = ['M', 'O', 'V'] then (regNameOf a).bind fun d => (regNameOf b).map (.mov d) else none
  | [.name m, .name a, .comma, .lbracket, .name b, .rbracket] =>
    if m = ['L', 'D', 'R'] then (regNameOf a).bind fun d => (regNameOf b).map (.ldr d) else none
  | [.name m, .lbracket, .name a, .rbracket, .comma, .name b] =>
    if m = ['S', 'T', 'R'] then (regNameOf a).bind fun d => (regNameOf b).map (.str d) else none
  | [.name m, .name a, .comma, .name b, .comma, .name c] =>
    (opcodeOfName m).bind fun op => (regNameOf a).bind fun d => (regNameOf b).bind fun s =>
      (regNameOf c).map (.general op d s)
  | _ => none

/-- A line of text, or none where it is no line of R72 or R73. -/
def parseLine (cs : List Char) : Option AsmLine := (tokens [] cs).bind lineOf

/-- The word of a line of text. -/
def assembleText (cs : List Char) : Option HalfWord := (parseLine cs).map AsmLine.assemble

end Sys2Proof.Machine
end

