-- ==== Sys2Proof/Machine/Launch.lean ====
section
/-! DEFINITION. Machine/Launch: the reset of the core, a launch by the host (R190 to R194). -/

namespace Sys2Proof.Machine

/-- `initialize()` (R190): every register, `pc` and every byte of memory 0. The status and cause it leaves are those of
reset and are not observable: `load` follows at once (D14, log 13). The model's own draw counter goes on (log 4). -/
def State.zeroed (s : State) : State := { State.reset with draws := s.draws }

/-- The words of a program from byte `a` on, each big-endian (R191). -/
def Memory.writeWords (m : Memory) (a : Nat) : List HalfWord → Memory
  | [] => m
  | w :: rest => (m.write16 a w).writeWords (a + 2) rest

/-- `2 * floor(MEM_SIZE / 2)`, the first byte offset that a program cannot use (R161, R165). -/
def firstOffsetBeyond : Nat := 2 * (Config.memSize / 2)

/-- `load(program)` (R191): the words from offset 0, or, where they do not fit, nothing but the fault (R165). The words
may be instructions or data and are not checked. -/
def State.load (s : State) (program : List HalfWord) : State :=
  if Config.memSize < 2 * program.length then s.raise (.outOfBounds .program firstOffsetBeyond)
  else { s with mem := s.mem.writeWords 0 program, status := .running }

/-- A launch (R192): `initialize` and one `load`. It may be made in any state and replaces all of it (R170, R195). -/
def State.launch (s : State) (program : List HalfWord) : State := s.zeroed.load program

end Sys2Proof.Machine
end

