-- ==== Sys2Proof/Machine/HostOps.lean ====
section
/-! DEFINITION. Machine/HostOps: the host's operations besides `launch` (R195): `step`, `run`, `snapshot`, `read_memory`,
the termination report (R171), and the numeric codes of status and cause (R31, D11). -/

namespace Sys2Proof.Machine

/-! ### Numeric codes (R31, R161, D11) -/

/-- Running 0, Halted 1, Faulted 2 (R31). -/
def Status.code : Status → Nat
  | .running => 0
  | .halted => 1
  | .faulted => 2

/-- `cause.kind`: IllegalOpcode 1, OutOfBounds 2 (R31). -/
def Cause.kindCode : Cause → Nat
  | .illegalOpcode _ => 1
  | .outOfBounds _ _ => 2

/-- `cause.access`: fetch 0, load 1, store 2, program 3 (R31). -/
def Access.code : Access → Nat
  | .fetch => 0
  | .load => 1
  | .store => 2
  | .program => 3

/-- `cause.opcode`, kind IllegalOpcode only (R31). -/
def Cause.opcode? : Cause → Option Nibble
  | .illegalOpcode opcode => some opcode
  | .outOfBounds _ _ => none

/-- `cause.access`, kind OutOfBounds only (R31). -/
def Cause.access? : Cause → Option Access
  | .illegalOpcode _ => none
  | .outOfBounds access _ => some access

/-- `cause.addr`, kind OutOfBounds only (R31). -/
def Cause.addr? : Cause → Option Nat
  | .illegalOpcode _ => none
  | .outOfBounds _ addr => some addr

/-! ### Observation -/

/-- What the host reads after each step: the 16 registers, `pc`, `status`, `cause` (R89, R195, D16). -/
structure Snapshot where
  x : Vector Word 16
  pc : Word
  status : Status
  cause : Option Cause
  deriving DecidableEq, Repr

/-- `snapshot()` (R195). -/
def State.snapshot (s : State) : Snapshot where
  x := s.x
  pc := s.pc
  status := s.status
  cause := s.cause

/-- `read_memory(addr, n)` (R195): the bytes of a range in bounds. None for a range that leaves memory, which the table
does not allow (log 14). -/
def State.readMemory (s : State) (addr n : Nat) : Option (List Byte) :=
  if inBounds addr n then some ((List.range n).map fun k => s.mem.get (addr + k)) else none

/-- The outcome of an ended run (R171). -/
inductive RunEnd where
  /-- `Halted`: success -/
  | success
  /-- `Faulted(cause)`: failure, with the opcode value or the operation kind and the address -/
  | failure (cause : Cause)
  deriving DecidableEq, Repr

/-- The outcome of the state, when the run has ended there (R171, R197). A `Faulted` state always has a cause (R20); none
is answered for one that has not, which no run reaches (log 14). -/
def State.runEnd (s : State) : Option RunEnd :=
  match s.status with
  | .running => none
  | .halted => some .success
  | .faulted => s.cause.map .failure

/-- What `run` gives back: the outcome with the final snapshot, or that the run goes on (R171, R195, R196). -/
inductive Report where
  | ended (outcome : RunEnd) (final : Snapshot)
  | stillRunning
  deriving DecidableEq, Repr

/-- The report of a state (R171). -/
def State.report (s : State) : Report :=
  match s.runEnd with
  | some e => .ended e s.snapshot
  | none => .stillRunning

/-- The host's `step()` (R195): one step, and the snapshot after it. -/
def hostStep (s : State) : Host.Outcome (State × Snapshot) Fault Refusal :=
  match step s with
  | .next t => .next (t, t.snapshot)
  | .fault f => .fault f
  | .refused r => .refused r

/-- The run loop under fuel (R196): `step` while `Running`, at most `fuel` times. -/
def run : Nat → State → Outcome
  | 0, s => .next s
  | fuel + 1, s =>
    match s.status with
    | .running =>
      match step s with
      | .next t => run fuel t
      | .fault f => .fault f
      | .refused r => .refused r
    | .halted => .next s
    | .faulted => .next s

/-- The host's `run(fuel)` (R195, R196): the state it ends in and the report. -/
def hostRun (fuel : Nat) (s : State) : Host.Outcome (State × Report) Fault Refusal :=
  match run fuel s with
  | .next t => .next (t, t.report)
  | .fault f => .fault f
  | .refused r => .refused r

end Sys2Proof.Machine
end

