-- ==== Sys2Proof/Safety.lean ====
section
/-! DEFINITION. Safety: the terms that claims about this core are stated in: the invariant of every state a run can reach, what
a step leaves unchanged, and when a run ends and is safe. -/

namespace Sys2Proof.Machine

/-! ### The next instruction -/

/-- The 2 bytes at `pc` are in memory (R49, R81). -/
abbrev State.canFetch (s : State) : Prop := s.pc.toNat + 1 < Config.memSize

/-- The word at `pc`, its high byte at the lower address (R42, R62, R81). -/
def State.nextWord (s : State) : HalfWord := s.mem.get s.pc.toNat ++ s.mem.get (s.pc.toNat + 1)

/-- The core is about to run the word `w`: it is `Running` and `w` is what fetch will read (R80, R81). -/
structure State.AboutToRun (s : State) (w : HalfWord) : Prop where
  running : s.status = .running
  inMemory : s.canFetch
  word : s.nextWord = w

/-! ### The invariant -/

/-- A fault report says what R161 says of it: an illegal opcode is 11 to 15; a fetch report is of the present `pc`, and the
2 bytes there leave memory; a load or store report is of 4 bytes that leave memory, at a `u32` address; a program report
is of the first offset beyond memory, with `pc` 0. -/
def State.causeFits (s : State) : Prop :=
  match s.cause with
  | none => True
  | some (.illegalOpcode opcode) => 11 ≤ opcode.toNat
  | some (.outOfBounds .fetch addr) => addr = s.pc.toNat ∧ Config.memSize ≤ addr + 1
  | some (.outOfBounds .load addr) => addr < 2 ^ 32 ∧ Config.memSize ≤ addr + 3
  | some (.outOfBounds .store addr) => addr < 2 ^ 32 ∧ Config.memSize ≤ addr + 3
  | some (.outOfBounds .program addr) => addr = firstOffsetBeyond ∧ s.pc = 0

/-- The invariant of the machine: memory is in its canonical form, a cause is present exactly in `Faulted` (R20, R31), and it
is one that R161 allows. -/
structure State.Inv (s : State) : Prop where
  memory : s.mem.wf
  cause_present : s.cause.isSome = true ↔ s.status = .faulted
  cause_fits : s.causeFits

/-! ### What is left unchanged. The model's own counter `draws` is no state of the core and is named where it matters. -/

/-- Every byte of memory reads as before. -/
def SameMemory (s t : State) : Prop := ∀ a, t.mem.get a = s.mem.get a

/-- Every register reads as before. -/
def SameRegisters (s t : State) : Prop := ∀ r, t.reg r = s.reg r

/-- The run state and the fault report are as before. -/
def SameControl (s t : State) : Prop := t.status = s.status ∧ t.cause = s.cause

/-- From `s` to `t` register `rd` takes the value `v` and nothing else of the core changes: no other register, no byte of
memory, not `pc`, not `status`, not `cause` (R23, R85, R100). -/
structure WritesRegister (rd : Reg) (v : Word) (s t : State) : Prop where
  result : t.reg rd = v
  registers : ∀ r, r ≠ rd → t.reg r = s.reg r
  pc : t.pc = s.pc
  memory : SameMemory s t
  control : SameControl s t

/-- From `s` to `t` the core raises `c` and nothing else of it changes: no register, no byte of memory, not `pc` (R87, R160). -/
structure Raises (c : Cause) (s t : State) : Prop where
  status : t.status = .faulted
  cause : t.cause = some c
  registers : SameRegisters s t
  pc : t.pc = s.pc
  memory : SameMemory s t

/-! ### Runs -/

/-- The run has ended: `Halted` or `Faulted` (R197). -/
def State.ended (s : State) : Prop := s.status ≠ .running

/-- From `s` the run ends after exactly `k` steps, in `t`: the first state with `status` Halted or Faulted (R197). -/
structure EndsAfter (k : Nat) (s t : State) : Prop where
  reached : run k s = .next t
  ended : t.ended
  first : ∀ j u, j < k → run j s = .next u → u.status = .running

/-- A safe run: under no fuel does it reach `Faulted` (R197: a `Faulted` end is never a successful end). -/
def SafeRun (s : State) : Prop := ∀ fuel t, run fuel s = .next t → t.status ≠ .faulted

end Sys2Proof.Machine
end

