-- ==== Sys2Proof/Certificates/Slice0/Obligations.lean ====
section
/-! DEFINITION. Obligations: what is stated of this model for the provers. The state `exec` is given is the one fetch leaves:
its `pc` is already `a + 2` (R27, R84). `draws` is the model's own counter (log 3); no statement rests on its value. -/

open Sys2Proof Sys2Proof.Machine

/-! ### Encoding -/

/-- Words written out from the encodings of 30_encoding.md and the vectors of 95_test_vectors.md decode to the instructions
they stand for, one of each family. -/
def Obligations.WrittenOutWordsDecode : Prop :=
  decodeWord 0x0312 = .add 3 1 2 ∧ decodeWord 0x1201 = .sub 2 0 1 ∧ decodeWord 0x5736 = .sll 7 3 6 ∧
  decodeWord 0x7870 = .ldr 8 7 0 ∧ decodeWord 0x8710 = .str 7 1 0 ∧ decodeWord 0x9CAB = .beq 12 10 11 ∧
  decodeWord 0xA000 = .halt 0 0 0 ∧ decodeWord 0xBFFF = .illegalOpcode11 15 15 15 ∧
  decodeWord 0xF123 = .illegalOpcodes12to15 15 1 2 3

/-- R63: `encode` packs four fields into a word as the rule writes it, the fields come back from the word (R61), and every word
is the packing of its fields. -/
def Obligations.FieldsAndWordsAreOneToOne : Prop :=
  (∀ o d s t : Nibble,
    pack o d s t = (o.setWidth 16 <<< 12) ||| (d.setWidth 16 <<< 8) ||| (s.setWidth 16 <<< 4) ||| t.setWidth 16 ∧
    opcodeField (pack o d s t) = o ∧ rdField (pack o d s t) = d ∧ rs1Field (pack o d s t) = s ∧
    rs2Field (pack o d s t) = t) ∧
  ∀ w : HalfWord, pack (opcodeField w) (rdField w) (rs1Field w) (rs2Field w) = w

/-- Decode and encode agree: every well-formed instruction, with every operand and ignored field, is read back from its word and
from its two bytes in memory, whatever follows them (R61, R62, R63, R71). -/
def Obligations.DecodeOfEncodeIsIdentity : Prop :=
  ∀ i : Instr, i.wellFormed = true →
    decodeWord (encode i) = i ∧ ∀ rest : List Byte, decodeBytes (bytesOfWord (encode i) ++ rest) = .ok (i, rest)

/-- Every word is a well-formed instruction whose word it is, and no other well-formed instruction has that word (R61, R63, R69). -/
def Obligations.EncodeOfDecodeIsIdentity : Prop :=
  ∀ w : HalfWord, (decodeWord w).wellFormed = true ∧ encode (decodeWord w) = w ∧
    ∀ i : Instr, i.wellFormed = true → encode i = w → i = decodeWord w

/-- Exactly one row of spec/opcode_table.json holds a word, and it is the row of the instruction decoded (R67, R69). -/
def Obligations.EveryWordIsInExactlyOneTableRow : Prop :=
  ∀ w : HalfWord, (opcodeTable.filter fun row => row.holds w).map TableRow.mnemonic = [(decodeWord w).mnemonic]

/-- R68: an ignored field never changes what a word does nor makes it illegal, and the canonical form has 0 there. -/
def Obligations.IgnoredFieldsHaveNoEffect : Prop :=
  (∀ (d a t t' : Nibble) (s : State),
    exec (decodeWord (pack 7 d a t)) s = exec (decodeWord (pack 7 d a t')) s ∧
    exec (decodeWord (pack 8 d a t)) s = exec (decodeWord (pack 8 d a t')) s ∧
    (decodeWord (pack 7 d a t)).mnemonic = "LDR" ∧ (decodeWord (pack 8 d a t)).mnemonic = "STR") ∧
  (∀ (o d a t d' a' t' : Nibble) (s : State), 10 ≤ o.toNat →
    exec (decodeWord (pack o d a t)) s = exec (decodeWord (pack o d' a' t')) s ∧
    (o = 10 → (decodeWord (pack o d a t)).mnemonic = "HALT")) ∧
  (∀ d a t : Nibble,
    encode (decodeWord (pack 7 d a t)).canonical = pack 7 d a 0 ∧
    encode (decodeWord (pack 8 d a t)).canonical = pack 8 d a 0) ∧
  ∀ o d a t : Nibble, 10 ≤ o.toNat → encode (decodeWord (pack o d a t)).canonical = pack o 0 0 0

/-! ### The step -/

/-- A step runs the decoded instruction: where the two bytes at `pc` are those of `i`, a step of the running core is `exec` of
`i` on the state with `pc` moved past them (R80, R81, R82, R83, R90). -/
def Obligations.StepRunsTheDecodedInstruction : Prop :=
  ∀ (s : State) (i : Instr), s.status = .running → s.canFetch →
    decodeBytes [s.mem.get s.pc.toNat, s.mem.get (s.pc.toNat + 1)] = .ok (i, []) →
    step s = exec i { s with pc := s.pc + 2 }

/-- The model's own: a table word placed by `withFetchWord` is the instruction the very next step runs, in any state (log 8). -/
def Obligations.PlacedTableWordRunsNext : Prop :=
  ∀ (s : State) (w : Nat), w < 2 ^ 16 →
    ∃ i : Instr, decodeTableWord 16 w = some i ∧
      step (s.withFetchWord 16 w) = exec i (s.withFetchWord 16 w).advance

/-- Every state has a next state: no step of this machine stops with a fault or a refusal of the interface, since a fault of the
core is a state (R160, log 5). -/
def Obligations.EveryStepAnswersANextState : Prop :=
  ∀ s : State, ∃ t : State, step s = .next t

/-! ### ALU -/

/-- R101, ADD: the word, the sum modulo 2^32 in `rd`, for every choice of the three registers; nothing else changes. -/
def Obligations.AddWritesSumModulo : Prop :=
  ∀ (rd rs1 rs2 : Reg) (s : State),
    decodeWord (pack 0x0 (regField rd) (regField rs1) (regField rs2)) = .add rd rs1 rs2 ∧
    ∃ (v : Word) (t : State), exec (.add rd rs1 rs2) s = .next t ∧
      v.toNat = ((s.reg rs1).toNat + (s.reg rs2).toNat) % 2 ^ 32 ∧ WritesRegister rd v s t

/-- R102, SUB: the word, `(x[rs1] + 2^32 - x[rs2]) mod 2^32` in `rd`; nothing else changes. -/
def Obligations.SubWritesDifferenceModulo : Prop :=
  ∀ (rd rs1 rs2 : Reg) (s : State),
    decodeWord (pack 0x1 (regField rd) (regField rs1) (regField rs2)) = .sub rd rs1 rs2 ∧
    ∃ (v : Word) (t : State), exec (.sub rd rs1 rs2) s = .next t ∧
      v.toNat = ((s.reg rs1).toNat + 2 ^ 32 - (s.reg rs2).toNat) % 2 ^ 32 ∧ WritesRegister rd v s t

/-- R103, AND: the word, the bitwise and in `rd`, bit by bit; nothing else changes. -/
def Obligations.AndWritesBitwiseAnd : Prop :=
  ∀ (rd rs1 rs2 : Reg) (s : State),
    decodeWord (pack 0x2 (regField rd) (regField rs1) (regField rs2)) = .and rd rs1 rs2 ∧
    ∃ (v : Word) (t : State), exec (.and rd rs1 rs2) s = .next t ∧
      (∀ k, v.getLsbD k = ((s.reg rs1).getLsbD k && (s.reg rs2).getLsbD k)) ∧ WritesRegister rd v s t

/-- R104, OR: the word, the bitwise inclusive or in `rd`, bit by bit; nothing else changes. -/
def Obligations.OrWritesBitwiseOr : Prop :=
  ∀ (rd rs1 rs2 : Reg) (s : State),
    decodeWord (pack 0x3 (regField rd) (regField rs1) (regField rs2)) = .or rd rs1 rs2 ∧
    ∃ (v : Word) (t : State), exec (.or rd rs1 rs2) s = .next t ∧
      (∀ k, v.getLsbD k = ((s.reg rs1).getLsbD k || (s.reg rs2).getLsbD k)) ∧ WritesRegister rd v s t

/-- R105, XOR: the word, the bitwise exclusive or in `rd`, bit by bit; nothing else changes. -/
def Obligations.XorWritesBitwiseXor : Prop :=
  ∀ (rd rs1 rs2 : Reg) (s : State),
    decodeWord (pack 0x4 (regField rd) (regField rs1) (regField rs2)) = .xor rd rs1 rs2 ∧
    ∃ (v : Word) (t : State), exec (.xor rd rs1 rs2) s = .next t ∧
      (∀ k, v.getLsbD k = ((s.reg rs1).getLsbD k ^^ (s.reg rs2).getLsbD k)) ∧ WritesRegister rd v s t

/-- R106 and R108, SLL: the word; it always completes and writes `rd` alone, for every amount; below 32 the value is
`(x[rs1] * 2^n) mod 2^32`, and from 32 on nothing is said of it. The amount is the whole of `x[rs2]`, read first. -/
def Obligations.SllWritesLeftShift : Prop :=
  ∀ (rd rs1 rs2 : Reg) (s : State),
    decodeWord (pack 0x5 (regField rd) (regField rs1) (regField rs2)) = .sll rd rs1 rs2 ∧
    ∃ (v : Word) (t : State), exec (.sll rd rs1 rs2) s = .next t ∧ WritesRegister rd v s t ∧
      ((s.reg rs2).toNat < 32 → v.toNat = ((s.reg rs1).toNat * 2 ^ (s.reg rs2).toNat) % 2 ^ 32)

/-- R107 and R108, SRL: the word; it always completes and writes `rd` alone, for every amount; below 32 the value is
`floor(x[rs1] / 2^n)`, and from 32 on nothing is said of it. -/
def Obligations.SrlWritesRightShift : Prop :=
  ∀ (rd rs1 rs2 : Reg) (s : State),
    decodeWord (pack 0x6 (regField rd) (regField rs1) (regField rs2)) = .srl rd rs1 rs2 ∧
    ∃ (v : Word) (t : State), exec (.srl rd rs1 rs2) s = .next t ∧ WritesRegister rd v s t ∧
      ((s.reg rs2).toNat < 32 → v.toNat = (s.reg rs1).toNat / 2 ^ (s.reg rs2).toNat)

/-- The model's choice (log 3): the value of an oversized shift is the free value at this operation, these operands and this
draw number, and the draw is counted; a shift in range draws nothing. -/
def Obligations.OversizedShiftWritesAFreeValue : Prop :=
  ∀ (rd rs1 rs2 : Reg) (s : State),
    (32 ≤ (s.reg rs2).toNat →
      (∃ t, exec (.sll rd rs1 rs2) s = .next t ∧ t.draws = s.draws + 1 ∧
        WritesRegister rd (Config.shiftOversize .sll (s.reg rs1) (s.reg rs2) s.draws) s t) ∧
      ∃ t, exec (.srl rd rs1 rs2) s = .next t ∧ t.draws = s.draws + 1 ∧
        WritesRegister rd (Config.shiftOversize .srl (s.reg rs1) (s.reg rs2) s.draws) s t) ∧
    ((s.reg rs2).toNat < 32 →
      (∃ t, exec (.sll rd rs1 rs2) s = .next t ∧ t.draws = s.draws) ∧
      ∃ t, exec (.srl rd rs1 rs2) s = .next t ∧ t.draws = s.draws)

/-! ### Load and store -/

/-- R120, LDR: the word; in bounds the four bytes at `x[rs1]`, the first the most significant, in `rd`, and nothing else changes,
at any alignment and with `rd = rs1` too; out of bounds `OutOfBounds(load, ea)` and nothing else. -/
def Obligations.LdrLoadsBigEndianWord : Prop :=
  ∀ (rd rs1 : Reg) (n : Nibble) (s : State),
    decodeWord (pack 0x7 (regField rd) (regField rs1) n) = .ldr rd rs1 n ∧
    ((s.reg rs1).toNat + 3 < Config.memSize →
      ∃ (v : Word) (t : State), exec (.ldr rd rs1 n) s = .next t ∧
        v.toNat = (s.mem.get (s.reg rs1).toNat).toNat * 2 ^ 24 + (s.mem.get ((s.reg rs1).toNat + 1)).toNat * 2 ^ 16 +
          (s.mem.get ((s.reg rs1).toNat + 2)).toNat * 2 ^ 8 + (s.mem.get ((s.reg rs1).toNat + 3)).toNat ∧
        WritesRegister rd v s t) ∧
    (Config.memSize ≤ (s.reg rs1).toNat + 3 →
      ∃ t : State, exec (.ldr rd rs1 n) s = .next t ∧ Raises (.outOfBounds .load (s.reg rs1).toNat) s t)

/-- R121, STR: the word; in bounds the four bytes of `x[rs1]` from the address in `x[rd]` on, the most significant first, and no
other byte, no register, not `pc` and not the run state changes; out of bounds `OutOfBounds(store, ea)` and nothing else. -/
def Obligations.StrStoresBigEndianWord : Prop :=
  ∀ (rd rs1 : Reg) (n : Nibble) (s : State),
    decodeWord (pack 0x8 (regField rd) (regField rs1) n) = .str rd rs1 n ∧
    effectiveAddress rd s = (s.reg rd).toNat ∧
    (effectiveAddress rd s + 3 < Config.memSize →
      ∃ t : State, exec (.str rd rs1 n) s = .next t ∧
        t.mem.get (effectiveAddress rd s) = (s.reg rs1).extractLsb 31 24 ∧
        t.mem.get (effectiveAddress rd s + 1) = (s.reg rs1).extractLsb 23 16 ∧
        t.mem.get (effectiveAddress rd s + 2) = (s.reg rs1).extractLsb 15 8 ∧
        t.mem.get (effectiveAddress rd s + 3) = (s.reg rs1).extractLsb 7 0 ∧
        (∀ a, a < effectiveAddress rd s ∨ effectiveAddress rd s + 4 ≤ a → t.mem.get a = s.mem.get a) ∧
        SameRegisters s t ∧ t.pc = s.pc ∧ SameControl s t) ∧
    (Config.memSize ≤ effectiveAddress rd s + 3 →
      ∃ t : State, exec (.str rd rs1 n) s = .next t ∧ Raises (.outOfBounds .store (effectiveAddress rd s)) s t)

/-- R124 (and R58): a word stored at `A` is the word a later LDR from `A` loads, by any registers, in any state whose bytes `A`
to `A + 3` no store has changed since; where `A > MEM_SIZE - 4` the store faults instead. -/
def Obligations.LoadReturnsTheWordStored : Prop :=
  ∀ (rd rs1 : Reg) (n : Nibble) (s : State),
    ((s.reg rd).toNat ≤ Config.memSize - 4 →
      ∃ t : State, exec (.str rd rs1 n) s = .next t ∧
        ∀ (u : State) (qd q1 : Reg) (m : Nibble), u.reg q1 = s.reg rd →
          (∀ k, k < 4 → u.mem.get ((s.reg rd).toNat + k) = t.mem.get ((s.reg rd).toNat + k)) →
          ∃ v : State, exec (.ldr qd q1 m) u = .next v ∧ WritesRegister qd (s.reg rs1) u v) ∧
    (Config.memSize - 4 < (s.reg rd).toNat →
      ∃ t : State, exec (.str rd rs1 n) s = .next t ∧ t.status = .faulted ∧ step t = .next t)

/-- R199 (and R56): a running STR that writes the bytes of the very next instruction: the next step runs the high half of the
word it stored, with no stale copy. -/
def Obligations.StoreIsSeenByTheVeryNextFetch : Prop :=
  ∀ (s : State) (rd rs1 : Reg) (n : Nibble),
    s.AboutToRun (encode (.str rd rs1 n)) → (s.reg rd).toNat + 3 < Config.memSize →
    (s.reg rd).toNat = s.pc.toNat + 2 →
    ∃ t : State, step s = .next t ∧ t.AboutToRun ((s.reg rs1).extractLsb 31 16) ∧
      step t = exec (decodeWord ((s.reg rs1).extractLsb 31 16)) t.advance

/-- R45: loads, stores and fetches see one byte array. A stored word is the two instruction words at `a` and `a + 2`, and a load
is the word at `a` and the word at `a + 2` side by side. -/
def Obligations.MixedWidthsSeeTheSameBytes : Prop :=
  ∀ (rd rs1 : Reg) (n : Nibble) (s : State),
    ((s.reg rd).toNat + 3 < Config.memSize →
      ∃ t : State, exec (.str rd rs1 n) s = .next t ∧
        { t with pc := s.reg rd }.nextWord = (s.reg rs1).extractLsb 31 16 ∧
        { t with pc := s.reg rd + 2 }.nextWord = (s.reg rs1).extractLsb 15 0) ∧
    ((s.reg rs1).toNat + 3 < Config.memSize →
      ∃ t : State, exec (.ldr rd rs1 n) s = .next t ∧
        t.reg rd = { s with pc := s.reg rs1 }.nextWord ++ { s with pc := s.reg rs1 + 2 }.nextWord)

/-! ### Control -/

/-- R140, BEQ: the word; with equal operands `pc` is all 32 bits of `x[rd]`, read before anything is written, otherwise it stays
where fetch left it; no register, byte or run state changes and nothing faults at the branch. A target outside memory faults at
the next fetch. -/
def Obligations.BeqCopiesItsTarget : Prop :=
  ∀ (rd rs1 rs2 : Reg) (s : State),
    decodeWord (pack 0x9 (regField rd) (regField rs1) (regField rs2)) = .beq rd rs1 rs2 ∧
    ∃ t : State, exec (.beq rd rs1 rs2) s = .next t ∧
      t.pc = (if s.reg rs1 = s.reg rs2 then s.reg rd else s.pc) ∧
      SameRegisters s t ∧ SameMemory s t ∧ SameControl s t ∧
      (s.status = .running → s.reg rs1 = s.reg rs2 → Config.memSize ≤ (s.reg rd).toNat + 1 →
        ∃ u : State, step t = .next u ∧ Raises (.outOfBounds .fetch (s.reg rd).toNat) t u)

/-- R141, R142: the step after a taken branch runs the word in the bytes at the target and the one after it, odd or even, and
not the word at `a + 2`. -/
def Obligations.TakenBranchTargetRunsNext : Prop :=
  ∀ (s : State) (rd rs1 rs2 : Reg),
    s.AboutToRun (encode (.beq rd rs1 rs2)) → s.reg rs1 = s.reg rs2 → (s.reg rd).toNat + 1 < Config.memSize →
    ∃ t : State, step s = .next t ∧ t.pc = s.reg rd ∧
      step t = exec (decodeWord (s.mem.get (s.reg rd).toNat ++ s.mem.get ((s.reg rd).toNat + 1))) t.advance

/-- A taken branch to its own address is an infinite loop: under any fuel the core stands where it began, still running
(R140's corner case, R145). -/
def Obligations.BranchToItselfNeverEnds : Prop :=
  ∀ (s : State) (rd rs1 rs2 : Reg),
    s.AboutToRun (encode (.beq rd rs1 rs2)) → s.reg rs1 = s.reg rs2 → s.reg rd = s.pc →
    ∀ fuel : Nat, run fuel s = .next s

/-- R144, HALT: any word of opcode 10; `status` becomes Halted, no register, byte, `pc` or cause changes, and no later step or
run changes anything. -/
def Obligations.HaltIsTerminal : Prop :=
  ∀ (d a b : Nibble) (s : State),
    decodeWord (pack 0xA d a b) = .halt d a b ∧
    ∃ t : State, exec (.halt d a b) s = .next t ∧ t.status = .halted ∧
      SameRegisters s t ∧ SameMemory s t ∧ t.pc = s.pc ∧ t.cause = s.cause ∧
      ∀ fuel : Nat, step t = .next t ∧ run fuel t = .next t

/-! ### Exceptions -/

/-- R162: both illegal rows raise `IllegalOpcode` with their opcode and change nothing else; as a step, `pc` is left at `a + 2`
and no register or byte changes, whatever the other fields are. -/
def Obligations.IllegalOpcodeFaults : Prop :=
  (∀ (d a b : Nibble) (s : State),
    ∃ t : State, exec (.illegalOpcode11 d a b) s = .next t ∧ Raises (.illegalOpcode 11) s t) ∧
  (∀ (o d a b : Nibble) (s : State), 12 ≤ o.toNat →
    ∃ t : State, exec (.illegalOpcodes12to15 o d a b) s = .next t ∧ Raises (.illegalOpcode o) s t) ∧
  ∀ (s : State) (w : HalfWord), s.AboutToRun w → 11 ≤ (opcodeField w).toNat →
    ∃ t : State, step s = .next t ∧ t.status = .faulted ∧ t.cause = some (.illegalOpcode (opcodeField w)) ∧
      t.pc = s.pc + 2 ∧ SameRegisters s t ∧ SameMemory s t

/-- R163 (and R49): a step that begins with `pc + 1` outside memory raises `OutOfBounds(fetch, pc)`; `pc`, the registers and
memory are unchanged. -/
def Obligations.FetchOutsideMemoryFaults : Prop :=
  ∀ s : State, s.status = .running → Config.memSize ≤ s.pc.toNat + 1 →
    ∃ t : State, step s = .next t ∧ Raises (.outOfBounds .fetch s.pc.toNat) s t

/-- R167 (and R87): exceptions are precise. A faulting step leaves every register and byte; `cause` identifies the exception, with
the opcode of the faulting word, the `pc` of the failed fetch, or the address in the faulting word's address register (`rs1` of
LDR, `rd` of STR); and `pc` is the address itself after a fetch bound and the address plus 2 after an illegal opcode or a data
bound. -/
def Obligations.ExceptionsArePrecise : Prop :=
  ∀ s : State, s.status = .running →
    ∃ t : State, step s = .next t ∧
      (t.status = .faulted →
        SameRegisters s t ∧ SameMemory s t ∧
        ((¬ s.canFetch ∧ t.cause = some (.outOfBounds .fetch s.pc.toNat) ∧ t.pc = s.pc) ∨
         (s.canFetch ∧ 11 ≤ (opcodeField s.nextWord).toNat ∧
           t.cause = some (.illegalOpcode (opcodeField s.nextWord)) ∧ t.pc = s.pc + 2) ∨
         (s.canFetch ∧ opcodeField s.nextWord = 7 ∧
           t.cause = some (.outOfBounds .load (s.reg (regOf (rs1Field s.nextWord))).toNat) ∧ t.pc = s.pc + 2) ∨
         (s.canFetch ∧ opcodeField s.nextWord = 8 ∧
           t.cause = some (.outOfBounds .store (s.reg (regOf (rdField s.nextWord))).toNat) ∧ t.pc = s.pc + 2)))

/-- What every step of the running core makes of `status` and `cause`, the checks in R166's order: the fetch bound, the opcode,
the data bound (R161); otherwise HALT halts (R144) and every other instruction leaves the core running with no new cause (R145). -/
def Obligations.StatusAndCauseOfEveryStep : Prop :=
  ∀ s : State, s.status = .running →
    ∃ t : State, step s = .next t ∧
      (t.status, t.cause) =
        (if Config.memSize ≤ s.pc.toNat + 1 then (.faulted, some (.outOfBounds .fetch s.pc.toNat))
        else if 11 ≤ (opcodeField s.nextWord).toNat then (.faulted, some (.illegalOpcode (opcodeField s.nextWord)))
        else if opcodeField s.nextWord = 7 ∧ Config.memSize ≤ (s.reg (regOf (rs1Field s.nextWord))).toNat + 3 then
          (.faulted, some (.outOfBounds .load (s.reg (regOf (rs1Field s.nextWord))).toNat))
        else if opcodeField s.nextWord = 8 ∧ Config.memSize ≤ (s.reg (regOf (rdField s.nextWord))).toNat + 3 then
          (.faulted, some (.outOfBounds .store (s.reg (regOf (rdField s.nextWord))).toNat))
        else if opcodeField s.nextWord = 10 then (.halted, s.cause)
        else (.running, s.cause))

/-! ### Rules of the whole machine -/

/-- R86: where every step of the running core leaves `pc`. -/
def Obligations.PcAfterEveryStep : Prop :=
  ∀ s : State, s.status = .running →
    ∃ t : State, step s = .next t ∧
      t.pc = (if ¬ s.canFetch then s.pc
        else if opcodeField s.nextWord = 9 ∧
            s.reg (regOf (rs1Field s.nextWord)) = s.reg (regOf (rs2Field s.nextWord)) then
          s.reg (regOf (rdField s.nextWord))
        else s.pc + 2)

/-- A register changes only in a step of the running core whose word has an opcode 0 to 7, and only the one its `rd` field names
(R23, R85). -/
def Obligations.OnlyAluAndLdrChangeTheirRegister : Prop :=
  ∀ s : State, ∃ t : State, step s = .next t ∧
    ∀ r : Reg, t.reg r ≠ s.reg r →
      s.status = .running ∧ s.canFetch ∧ (opcodeField s.nextWord).toNat ≤ 7 ∧ r = regOf (rdField s.nextWord)

/-- A byte changes only in a step of the running core whose word is an STR in bounds, and only one of the four it stores
(R41, R43, R48). -/
def Obligations.OnlyStrChangesItsFourBytes : Prop :=
  ∀ s : State, ∃ t : State, step s = .next t ∧
    ∀ a : Nat, t.mem.get a ≠ s.mem.get a →
      s.status = .running ∧ s.canFetch ∧ opcodeField s.nextWord = 8 ∧
        (s.reg (regOf (rdField s.nextWord))).toNat ≤ a ∧ a < (s.reg (regOf (rdField s.nextWord))).toNat + 4 ∧
        (s.reg (regOf (rdField s.nextWord))).toNat + 3 < Config.memSize

/-- `pc` stays even but for a taken BEQ with an odd target, which does make it odd (R28, C2). -/
def Obligations.PcStaysEvenButForOddTargets : Prop :=
  ∀ s : State, s.status = .running → s.pc.toNat % 2 = 0 →
    ∃ t : State, step s = .next t ∧
      (t.pc.toNat % 2 = 1 ↔
        s.canFetch ∧ opcodeField s.nextWord = 9 ∧
          s.reg (regOf (rs1Field s.nextWord)) = s.reg (regOf (rs2Field s.nextWord)) ∧
          (s.reg (regOf (rdField s.nextWord))).toNat % 2 = 1)

/-- R29: a fetch that advances `pc` adds 2 with no wrap and leaves it at most `MEM_SIZE`. -/
def Obligations.FetchNeverWrapsThePc : Prop :=
  ∀ s : State, s.canFetch →
    ∃ (w : HalfWord) (t : State), s.fetch = .ok (w, t) ∧ t.pc.toNat = s.pc.toNat + 2 ∧ t.pc.toNat ≤ Config.memSize

/-- R22: no register is hardwired, R0 included: a write to a register is what the next read of it returns, and no other register
changes. -/
def Obligations.EveryRegisterReadsAsLastWritten : Prop :=
  ∀ (s : State) (r : Reg) (v : Word), (s.setReg r v).reg r = v ∧ ∀ q : Reg, q ≠ r → (s.setReg r v).reg q = s.reg q

/-- The invariant is kept by every step, from every state that has it: canonical memory, a cause exactly in `Faulted`, and one
that R161 allows. -/
def Obligations.EveryStepKeepsTheInvariant : Prop :=
  ∀ s t : State, s.Inv → step s = .next t → t.Inv

/-- Reset has the invariant. -/
def Obligations.ResetHasTheInvariant : Prop := State.reset.Inv

/-- Every launch, from any state and of any program, has the invariant, whether the program fits or not (R35, R165, R191). -/
def Obligations.EveryLaunchHasTheInvariant : Prop :=
  ∀ (s : State) (program : List HalfWord), (s.launch program).Inv

/-- A step whose word is no shift by 32 or more draws nothing and does the same whatever the draw counter is: the free value is
the only thing that a step does not determine (R201, R108; the counter is the model's, log 3). -/
def Obligations.OnlyOversizedShiftsDependOnDraws : Prop :=
  ∀ (s : State) (d : Nat),
    (s.canFetch → opcodeField s.nextWord = 5 ∨ opcodeField s.nextWord = 6 →
      (s.reg (regOf (rs2Field s.nextWord))).toNat < 32) →
    ∃ t : State, step s = .next t ∧ t.draws = s.draws ∧ step { s with draws := d } = .next { t with draws := d }

/-- While all registers are 0, a step that is no LDR keeps them 0 (R65; every ALU operation maps 0 and 0 to 0). -/
def Obligations.ZeroRegistersStayZeroWithoutLoads : Prop :=
  ∀ s : State, (∀ r, s.reg r = 0) → (s.canFetch → opcodeField s.nextWord ≠ 7) →
    ∃ t : State, step s = .next t ∧ ∀ r, t.reg r = 0

/-! ### Launch, host and runs -/

/-- R35 and R165: the whole state after a launch, from any state: of a program that fits, and of one that does not, which then
never steps. -/
def Obligations.LaunchSetsTheWholeState : Prop :=
  ∀ (s : State) (program : List HalfWord),
    (∀ r, (s.launch program).reg r = 0) ∧ (s.launch program).pc = 0 ∧
    (program.length ≤ Config.memSize / 2 →
      (s.launch program).status = .running ∧ (s.launch program).cause = none ∧
      (∀ (i : Nat) (h : i < program.length),
        (s.launch program).mem.get (2 * i) = program[i].extractLsb 15 8 ∧
        (s.launch program).mem.get (2 * i + 1) = program[i].extractLsb 7 0) ∧
      ∀ b, 2 * program.length ≤ b → (s.launch program).mem.get b = 0) ∧
    (Config.memSize / 2 < program.length →
      (s.launch program).status = .faulted ∧
      (s.launch program).cause = some (.outOfBounds .program (2 * (Config.memSize / 2))) ∧
      (∀ b, (s.launch program).mem.get b = 0) ∧
      step (s.launch program) = .next (s.launch program))

/-- The model's reset is a launch of no words: every register, `pc` and byte 0, `Running`, no cause (R35, R190, R192; that reset
is this launch is log 7, the counter log 4). -/
def Obligations.ResetIsTheEmptyLaunch : Prop :=
  (∀ s : State, s.launch [] = { State.reset with draws := s.draws }) ∧
  (∀ r, State.reset.reg r = 0) ∧ State.reset.pc = 0 ∧ (∀ a, State.reset.mem.get a = 0) ∧
  State.reset.status = .running ∧ State.reset.cause = none

/-- In `Halted` and `Faulted` nothing moves any more: neither a step nor a run changes the state (R31, R80, R178, R195; that the
step answers the same state is log 6). -/
def Obligations.EndedStatesNeverMove : Prop :=
  ∀ s : State, s.ended → step s = .next s ∧ ∀ fuel : Nat, run fuel s = .next s

/-- The host's run loop under fuel is the machine stepped that many times: running past the end changes nothing (R196). -/
def Obligations.RunIsTheMachineSteppedThatOften : Prop :=
  ∀ (fuel : Nat) (s : State), run fuel s = Host.Core.run Sys2Proof.core fuel s

/-- The end of a run is one step count and one state: it stays the outcome under all further fuel, and no other count ends the
run (R197). -/
def Obligations.RunEndIsUniqueAndFinal : Prop :=
  ∀ (k : Nat) (s t : State), EndsAfter k s t →
    (∀ j : Nat, run (k + j) s = .next t) ∧ ∀ (k' : Nat) (t' : State), EndsAfter k' s t' → k' = k ∧ t' = t

/-- The host's `run(fuel)` gives back the state where the run stands and its report: the end with the final snapshot once the fuel
reaches it, and before that the state the run has come to, still `Running`, with "still running" (R171, R195, R196). -/
def Obligations.HostRunReportsTheEnd : Prop :=
  ∀ (k : Nat) (s t : State), s.Inv → EndsAfter k s t →
    (∀ j : Nat, ∃ outcome : RunEnd, t.runEnd = some outcome ∧
      hostRun (k + j) s = .next (t, .ended outcome t.snapshot)) ∧
    ∀ j : Nat, j < k → ∃ u : State, run j s = .next u ∧ u.status = .running ∧
      hostRun j s = .next (u, .stillRunning)

/-- A run that ends is safe exactly when it ends in `Halted`: a `Faulted` end is never a successful end (R197). -/
def Obligations.EndedRunIsSafeExactlyWhenHalted : Prop :=
  ∀ (k : Nat) (s t : State), EndsAfter k s t → (SafeRun s ↔ t.status = .halted)

/-- R171: the termination report of a state with the invariant: none while `Running`, success in `Halted`, failure with the
cause in `Faulted`, each with the final snapshot. -/
def Obligations.ReportDistinguishesTheOutcomes : Prop :=
  ∀ s : State, s.Inv →
    (s.status = .running → s.report = .stillRunning) ∧
    (s.status = .halted → s.report = .ended .success s.snapshot) ∧
    (s.status = .faulted → ∃ c, s.cause = some c ∧ s.report = .ended (.failure c) s.snapshot)

/-- The host's operations beside `launch` and `run` (R195): `step` answers the step and the snapshot after it, which holds the
registers, `pc`, `status` and `cause` (R89); `read_memory` of a range in bounds answers its bytes, in order. -/
def Obligations.HostStepsAndReads : Prop :=
  (∀ s : State, ∃ t : State, step s = .next t ∧ hostStep s = .next (t, t.snapshot) ∧
    (∀ r : Reg, t.snapshot.x[r.val] = t.reg r) ∧ t.snapshot.pc = t.pc ∧ t.snapshot.status = t.status ∧
    t.snapshot.cause = t.cause) ∧
  ∀ (s : State) (addr n : Nat), addr + n ≤ Config.memSize →
    ∃ bytes : List Byte, s.readMemory addr n = some bytes ∧ bytes.length = n ∧
      ∀ (k : Nat) (h : k < bytes.length), bytes[k] = s.mem.get (addr + k)

/-! ### Words of note and the assembler -/

/-- R70: the all-zero word is `ADD R0, R0, R0`, an ordinary instruction: it doubles R0, and leaves it unchanged only while it is
0. Memory that no program covers reads as this word. -/
def Obligations.ZeroWordDoublesRegisterZero : Prop :=
  decodeWord 0x0000 = .add 0 0 0 ∧
  (∀ s : State, ∃ (v : Word) (t : State), exec (decodeWord 0x0000) s = .next t ∧ WritesRegister 0 v s t ∧
    v = s.reg 0 + s.reg 0 ∧ (v = s.reg 0 ↔ s.reg 0 = 0)) ∧
  ∀ (s : State) (program : List HalfWord) (p : Word), program.length ≤ Config.memSize / 2 →
    2 * program.length ≤ p.toNat → { s.launch program with pc := p }.nextWord = 0x0000

/-- R73: the pseudo-instructions are the words shown there, and do what is said there. -/
def Obligations.PseudoInstructionsDoWhatTheySay : Prop :=
  AsmLine.nop.assemble = 0x3000 ∧
  (∀ s : State, ∃ t, exec .nop s = .next t ∧ SameRegisters s t ∧ t.pc = s.pc ∧ SameMemory s t ∧ SameControl s t) ∧
  (∀ (rd rs : Reg), (AsmLine.mov rd rs).assemble = encode (.or rd rs rs) ∧
    ∀ s : State, ∃ t, exec (.mov rd rs) s = .next t ∧ WritesRegister rd (s.reg rs) s t) ∧
  (∀ rd : Reg, (AsmLine.clr rd).assemble = encode (.xor rd rd rd) ∧
    ∀ s : State, ∃ t, exec (.clr rd) s = .next t ∧ WritesRegister rd 0 s t) ∧
  ∀ rt : Reg, (AsmLine.jmp rt).assemble = encode (.beq rt 0 0) ∧
    ∀ s : State, ∃ t, exec (.jmp rt) s = .next t ∧ t.pc = s.reg rt ∧ SameRegisters s t ∧ SameMemory s t ∧
      SameControl s t

/-- R72: the forms of the assembler's table are the words shown there, and each is read back by the decoder as the instruction it
names: the general form at each of the opcodes 0 to 10, `LDR Rd, [Rs1]`, `STR [Rd], Rs1` and `HALT`. A data word is itself. -/
def Obligations.AssemblerFormsAreTheirWords : Prop :=
  (∀ (o : Nibble) (rd rs1 rs2 : Reg),
    (AsmLine.general o rd rs1 rs2).assemble = pack o (regField rd) (regField rs1) (regField rs2)) ∧
  (∀ rd rs1 rs2 : Reg,
    decodeWord (AsmLine.general 0 rd rs1 rs2).assemble = .add rd rs1 rs2 ∧
    decodeWord (AsmLine.general 1 rd rs1 rs2).assemble = .sub rd rs1 rs2 ∧
    decodeWord (AsmLine.general 2 rd rs1 rs2).assemble = .and rd rs1 rs2 ∧
    decodeWord (AsmLine.general 3 rd rs1 rs2).assemble = .or rd rs1 rs2 ∧
    decodeWord (AsmLine.general 4 rd rs1 rs2).assemble = .xor rd rs1 rs2 ∧
    decodeWord (AsmLine.general 5 rd rs1 rs2).assemble = .sll rd rs1 rs2 ∧
    decodeWord (AsmLine.general 6 rd rs1 rs2).assemble = .srl rd rs1 rs2 ∧
    decodeWord (AsmLine.general 7 rd rs1 rs2).assemble = .ldr rd rs1 (regField rs2) ∧
    decodeWord (AsmLine.general 8 rd rs1 rs2).assemble = .str rd rs1 (regField rs2) ∧
    decodeWord (AsmLine.general 9 rd rs1 rs2).assemble = .beq rd rs1 rs2 ∧
    decodeWord (AsmLine.general 10 rd rs1 rs2).assemble = .halt (regField rd) (regField rs1) (regField rs2)) ∧
  (∀ rd rs1 : Reg, (AsmLine.ldr rd rs1).assemble = pack 7 (regField rd) (regField rs1) 0 ∧
    decodeWord (AsmLine.ldr rd rs1).assemble = .ldr rd rs1 0) ∧
  (∀ rd rs1 : Reg, (AsmLine.str rd rs1).assemble = pack 8 (regField rd) (regField rs1) 0 ∧
    decodeWord (AsmLine.str rd rs1).assemble = .str rd rs1 0) ∧
  AsmLine.halt.assemble = 0xA000 ∧ decodeWord AsmLine.halt.assemble = .halt 0 0 0 ∧
  ∀ v : HalfWord, (AsmLine.word v).assemble = v
end

