-- ==== Sys2Proof/Laws/Memory.lean ====
section
/-! SUPPORT. Laws/Memory: what reading gives after writing, and that every memory operation keeps the canonical form. -/

namespace Sys2Proof.Machine

/-! ### One byte -/

@[simp] theorem Memory.get_nil (a : Nat) : Memory.get [] a = 0 := rfl

theorem Memory.get_erase (m : Memory) (a c : Nat) :
    (m.erase a).get c = if c = a then 0 else m.get c := by
  induction m with
  | nil => simp [Memory.erase]
  | cons e m ih =>
    simp only [Memory.erase, Memory.get]
    split
    · rw [ih]; split <;> simp_all [eq_comm]
    · simp only [Memory.get, ih]; split <;> simp_all

theorem Memory.mem_erase (m : Memory) (a : Nat) (e : Host.Cell) : e ∈ m.erase a ↔ e ∈ m ∧ e.1 ≠ a := by
  induction m with
  | nil => simp [Memory.erase]
  | cons d m ih =>
    simp only [Memory.erase]
    split
    · rw [ih]; constructor
      · rintro ⟨h, hn⟩; exact ⟨List.mem_cons_of_mem _ h, hn⟩
      · rintro ⟨h, hn⟩
        rcases List.mem_cons.mp h with rfl | h
        · exact absurd ‹_› hn
        · exact ⟨h, hn⟩
    · simp only [List.mem_cons, ih]; constructor
      · rintro (rfl | ⟨h, hn⟩)
        · exact ⟨.inl rfl, ‹_›⟩
        · exact ⟨.inr h, hn⟩
      · rintro ⟨rfl | h, hn⟩
        · exact .inl rfl
        · exact .inr ⟨h, hn⟩

theorem Memory.get_insert (n : Memory) (a : Nat) (v : Byte) (c : Nat) (hn : ∀ e ∈ n, e.1 ≠ a) :
    (n.insert a v).get c = if c = a then v else n.get c := by
  induction n with
  | nil => simp [Memory.insert, Memory.get, eq_comm]
  | cons e n ih =>
    have h1 : e.1 ≠ a := hn e (by simp)
    have ih := ih fun x hx => hn x (by simp [hx])
    simp only [Memory.insert]
    split
    · simp [Memory.get, eq_comm]
    · simp only [Memory.get, ih]
      split <;> simp_all

/-- Reading a byte after writing one (R50, R53). -/
theorem Memory.get_set (m : Memory) (a : Nat) (v : Byte) (c : Nat) :
    (m.set a v).get c = if c = a then v else m.get c := by
  unfold Memory.set
  split
  · rw [Memory.get_erase]; simp_all
  · rw [Memory.get_insert _ _ _ _ fun e he => ((Memory.mem_erase m a e).mp he).2, Memory.get_erase]
    split <;> rfl

@[simp] theorem Memory.get_set_same (m : Memory) (a : Nat) (v : Byte) : (m.set a v).get a = v := by
  simp [Memory.get_set]

@[simp] theorem Memory.get_set_other (m : Memory) {a c : Nat} (v : Byte) (h : c ≠ a) :
    (m.set a v).get c = m.get c := by
  simp [Memory.get_set, h]

/-! ### The canonical form -/

theorem Memory.mem_insert (n : Memory) (a : Nat) (v : Byte) (e : Host.Cell) :
    e ∈ n.insert a v ↔ e = (a, v) ∨ e ∈ n := by
  induction n with
  | nil => simp [Memory.insert]
  | cons d n ih =>
    simp only [Memory.insert]
    split
    · simp
    · simp only [List.mem_cons, ih]; tauto

theorem Memory.pairwise_erase {m : Memory} (a : Nat) (h : m.Pairwise fun c d => c.1 < d.1) :
    (m.erase a).Pairwise fun c d => c.1 < d.1 := by
  induction m with
  | nil => simp [Memory.erase]
  | cons d m ih =>
    rw [List.pairwise_cons] at h
    simp only [Memory.erase]
    split
    · exact ih h.2
    · exact List.pairwise_cons.mpr ⟨fun e he => h.1 e ((Memory.mem_erase m a e).mp he).1, ih h.2⟩

theorem Memory.pairwise_insert {n : Memory} (a : Nat) (v : Byte) (h : n.Pairwise fun c d => c.1 < d.1)
    (hn : ∀ e ∈ n, e.1 ≠ a) : (n.insert a v).Pairwise fun c d => c.1 < d.1 := by
  induction n with
  | nil => simp [Memory.insert]
  | cons d n ih =>
    have hd := List.pairwise_cons.mp h
    have hda : d.1 ≠ a := hn d (by simp)
    simp only [Memory.insert]
    split
    · next hlt =>
      refine List.pairwise_cons.mpr ⟨fun e he => ?_, h⟩
      rcases List.mem_cons.mp he with rfl | he
      · exact hlt
      · exact Nat.lt_trans hlt (hd.1 e he)
    · refine List.pairwise_cons.mpr ⟨fun e he => ?_, ih hd.2 fun e he => hn e (by simp [he])⟩
      rcases (Memory.mem_insert n a v e).mp he with rfl | he
      · simp only; omega
      · exact hd.1 e he

theorem Memory.wf_nil : Memory.wf [] := by simp [Memory.wf]

/-- A write within memory keeps the canonical form. -/
theorem Memory.wf_set {m : Memory} {a : Nat} (v : Byte) (h : m.wf) (ha : a < Config.memSize) : (m.set a v).wf := by
  unfold Memory.set
  split
  · exact ⟨Memory.pairwise_erase a h.1, fun e he => h.2 e ((Memory.mem_erase m a e).mp he).1⟩
  · next hv =>
    refine ⟨Memory.pairwise_insert a v (Memory.pairwise_erase a h.1)
      fun e he => ((Memory.mem_erase m a e).mp he).2, fun e he => ?_⟩
    rcases (Memory.mem_insert _ a v e).mp he with rfl | he
    · exact ⟨ha, hv⟩
    · exact h.2 e ((Memory.mem_erase m a e).mp he).1

theorem Memory.wf_write16 {m : Memory} {a : Nat} (v : HalfWord) (h : m.wf) (ha : a + 2 ≤ Config.memSize) :
    (m.write16 a v).wf :=
  Memory.wf_set _ (Memory.wf_set _ h (by omega)) (by omega)

theorem Memory.wf_write32 {m : Memory} {a : Nat} (v : Word) (h : m.wf) (ha : a + 4 ≤ Config.memSize) :
    (m.write32 a v).wf :=
  Memory.wf_write16 _ (Memory.wf_write16 _ h (by omega)) (by omega)

theorem Memory.wf_writeWords {m : Memory} {a : Nat} {p : List HalfWord} (h : m.wf)
    (ha : a + 2 * p.length ≤ Config.memSize) : (m.writeWords a p).wf := by
  induction p generalizing m a with
  | nil => exact h
  | cons w p ih =>
    simp only [List.length_cons] at ha
    exact ih (Memory.wf_write16 w h (by omega)) (by omega)

/-- A listed byte is read as it is listed. -/
theorem Memory.get_of_mem {m : Memory} (h : m.wf) {e : Host.Cell} (he : e ∈ m) : m.get e.1 = e.2 := by
  induction m with
  | nil => simp at he
  | cons d m ih =>
    have hd := List.pairwise_cons.mp h.1
    simp only [Memory.get]
    rcases List.mem_cons.mp he with rfl | he
    · simp
    · have hlt := hd.1 e he
      rw [if_neg (by omega)]
      exact ih ⟨hd.2, fun x hx => h.2 x (by simp [hx])⟩ he

/-- Outside memory nothing is listed. -/
theorem Memory.get_beyond {m : Memory} (h : m.wf) {a : Nat} (ha : Config.memSize ≤ a) : m.get a = 0 := by
  induction m with
  | nil => rfl
  | cons d m ih =>
    have hd := List.pairwise_cons.mp h.1
    have hb := (h.2 d (by simp)).1
    simp only [Memory.get]
    rw [if_neg (by omega)]
    exact ih ⟨hd.2, fun x hx => h.2 x (by simp [hx])⟩

/-! ### Big-endian values -/

/-- A field of a field. -/
theorem extract_extract {w p m q n : Nat} (v : BitVec w) (h : q + n ≤ m) :
    (v.extractLsb' p m).extractLsb' q n = v.extractLsb' (p + q) n := by
  apply BitVec.eq_of_getLsbD_eq
  intro k hk
  simp only [BitVec.getLsbD_extractLsb', hk, decide_true, Bool.true_and, Nat.add_assoc]
  rw [decide_eq_true (by omega), Bool.true_and]

/-- The high part and the low part of a value make the value. -/
theorem extract_append_extract {p q : Nat} (v : BitVec (p + q)) : v.extractLsb' q p ++ v.extractLsb' 0 q = v := by
  apply BitVec.eq_of_getLsbD_eq
  intro k hk
  simp only [BitVec.getLsbD_append, BitVec.getLsbD_extractLsb', Nat.zero_add]
  split
  · next h => simp [h]
  · next h =>
    rw [decide_eq_true (show k - q < p by omega), Bool.true_and]
    congr 1; omega

theorem Memory.get_write16 (m : Memory) (a : Nat) (v : HalfWord) (c : Nat) :
    (m.write16 a v).get c =
      if c = a then v.extractLsb' 8 8 else if c = a + 1 then v.extractLsb' 0 8 else m.get c := by
  simp only [Memory.write16, Memory.get_set]
  split
  · next h => subst h; simp
  · split <;> rfl

/-- Every byte after a 4-byte store (R43, R121). -/
theorem Memory.get_write32 (m : Memory) (a : Nat) (v : Word) (c : Nat) :
    (m.write32 a v).get c =
      if c = a then v.extractLsb' 24 8 else if c = a + 1 then v.extractLsb' 16 8
      else if c = a + 2 then v.extractLsb' 8 8 else if c = a + 3 then v.extractLsb' 0 8 else m.get c := by
  have e1 : (v.extractLsb' 16 16).extractLsb' 8 8 = v.extractLsb' 24 8 := by
    rw [extract_extract _ (by omega)]
  have e2 : (v.extractLsb' 16 16).extractLsb' 0 8 = v.extractLsb' 16 8 := by
    rw [extract_extract _ (by omega)]
  have e3 : (v.extractLsb' 0 16).extractLsb' 8 8 = v.extractLsb' 8 8 := by
    rw [extract_extract _ (by omega)]
  have e4 : (v.extractLsb' 0 16).extractLsb' 0 8 = v.extractLsb' 0 8 := by
    rw [extract_extract _ (by omega)]
  simp only [Memory.write32, Memory.get_write16, e1, e2, e3, e4]
  by_cases h0 : c = a <;> by_cases h1 : c = a + 1 <;> by_cases h2 : c = a + 2 <;> by_cases h3 : c = a + 3 <;>
    simp_all
  omega

theorem Memory.get_write32_other (m : Memory) {a : Nat} (v : Word) {c : Nat} (h : c < a ∨ a + 4 ≤ c) :
    (m.write32 a v).get c = m.get c := by
  rw [Memory.get_write32]
  repeat rw [if_neg (by omega)]

/-- A value written is the value read (R58). -/
theorem Memory.read16_write16 (m : Memory) (a : Nat) (v : HalfWord) : (m.write16 a v).read16 a = v := by
  simp only [Memory.read16, wordOfBytes, Memory.get_write16]
  rw [if_pos trivial, if_neg (by omega), if_pos trivial]
  exact extract_append_extract (p := 8) (q := 8) v

theorem Memory.read16_congr {m n : Memory} {a : Nat} (h0 : m.get a = n.get a) (h1 : m.get (a + 1) = n.get (a + 1)) :
    m.read16 a = n.read16 a := by
  simp only [Memory.read16, h0, h1]

theorem Memory.read32_congr {m n : Memory} {a : Nat} (h : ∀ k, k < 4 → m.get (a + k) = n.get (a + k)) :
    m.read32 a = n.read32 a := by
  have h0 := h 0 (by omega)
  have h1 := h 1 (by omega)
  have h2 := h 2 (by omega)
  have h3 := h 3 (by omega)
  simp only [Memory.read32, Memory.read16, Nat.add_assoc] at *
  simp_all

/-- A 32-bit value stored is the value loaded (R58, R124). -/
theorem Memory.read32_write32 (m : Memory) (a : Nat) (v : Word) : (m.write32 a v).read32 a = v := by
  have hi : (m.write32 a v).read16 a = v.extractLsb' 16 16 := by
    rw [← Memory.read16_write16 m a (v.extractLsb' 16 16)]
    unfold Memory.write32
    apply Memory.read16_congr <;> rw [Memory.get_write16, if_neg (by omega), if_neg (by omega)]
  have lo : (m.write32 a v).read16 (a + 2) = v.extractLsb' 0 16 := Memory.read16_write16 _ _ _
  simp only [Memory.read32, hi, lo]
  exact extract_append_extract (p := 16) (q := 16) v

/-- The high half of a stored word is the instruction word at its address (R45). -/
theorem Memory.read16_write32_high (m : Memory) (a : Nat) (v : Word) :
    (m.write32 a v).read16 a = v.extractLsb 31 16 := by
  have h : (m.write32 a v).read16 a = v.extractLsb' 16 16 := by
    rw [← Memory.read16_write16 m a (v.extractLsb' 16 16)]
    unfold Memory.write32
    apply Memory.read16_congr <;> rw [Memory.get_write16, if_neg (by omega), if_neg (by omega)]
  exact h

/-- The low half of a stored word is the instruction word 2 bytes on (R45). -/
theorem Memory.read16_write32_low (m : Memory) (a : Nat) (v : Word) :
    (m.write32 a v).read16 (a + 2) = v.extractLsb 15 0 :=
  Memory.read16_write16 _ _ _

/-- A big-endian 16-bit value as a number (R42). -/
theorem Memory.read16_toNat (m : Memory) (a : Nat) :
    (m.read16 a).toNat = (m.get a).toNat * 2 ^ 8 + (m.get (a + 1)).toNat := by
  simp only [Memory.read16, wordOfBytes, BitVec.toNat_append]
  rw [← Nat.shiftLeft_add_eq_or_of_lt (m.get (a + 1)).isLt, Nat.shiftLeft_eq]

/-- A big-endian 32-bit value as a number (R42, R120). -/
theorem Memory.read32_toNat (m : Memory) (a : Nat) :
    (m.read32 a).toNat = (m.get a).toNat * 2 ^ 24 + (m.get (a + 1)).toNat * 2 ^ 16
      + (m.get (a + 2)).toNat * 2 ^ 8 + (m.get (a + 3)).toNat := by
  simp only [Memory.read32, BitVec.toNat_append]
  rw [← Nat.shiftLeft_add_eq_or_of_lt (m.read16 (a + 2)).isLt, Nat.shiftLeft_eq, Memory.read16_toNat,
    Memory.read16_toNat]
  ring

/-! ### The words of a program (R191) -/

/-- A byte outside the program's words is as before. -/
theorem Memory.get_writeWords_other (p : List HalfWord) (m : Memory) (a : Nat) {c : Nat}
    (h : c < a ∨ a + 2 * p.length ≤ c) : (m.writeWords a p).get c = m.get c := by
  induction p generalizing m a with
  | nil => rfl
  | cons w p ih =>
    simp only [List.length_cons] at h
    simp only [Memory.writeWords]
    rw [ih _ _ (by omega), Memory.get_write16, if_neg (by omega), if_neg (by omega)]

/-- Word `i` of a program stands at bytes `a + 2i` and `a + 2i + 1`. -/
theorem Memory.read16_writeWords (p : List HalfWord) (m : Memory) (a i : Nat) (h : i < p.length) :
    (m.writeWords a p).read16 (a + 2 * i) = p[i] := by
  induction p generalizing m a i with
  | nil => simp at h
  | cons w p ih =>
    simp only [Memory.writeWords]
    cases i with
    | zero =>
      have := Memory.read16_write16 m a w
      simp only [List.getElem_cons_zero, Nat.mul_zero, Nat.add_zero]
      rw [← this]
      apply Memory.read16_congr <;> rw [Memory.get_writeWords_other] <;> first | omega | rw [this]
    | succ i =>
      have e : a + 2 * (i + 1) = (a + 2) + 2 * i := by ring
      rw [e, ih _ _ i (by simpa using h)]
      simp

/-! ### Checked accesses: all that each can answer -/

theorem Memory.fetchWord_eq (m : Memory) (a : Nat) :
    m.fetchWord a = if a + 1 < Config.memSize then .ok (m.read16 a) else .error (.outOfBounds .fetch a) := by
  simp only [Memory.fetchWord, inBounds, decide_eq_true_eq]
  rfl

theorem Memory.loadWord_eq (m : Memory) (a : Nat) :
    m.loadWord a = if a + 3 < Config.memSize then .ok (m.read32 a) else .error (.outOfBounds .load a) := by
  simp only [Memory.loadWord, inBounds, decide_eq_true_eq]
  rfl

theorem Memory.storeWord_eq (m : Memory) (a : Nat) (v : Word) :
    m.storeWord a v = if a + 3 < Config.memSize then .ok (m.write32 a v) else .error (.outOfBounds .store a) := by
  simp only [Memory.storeWord, inBounds, decide_eq_true_eq]
  rfl

end Sys2Proof.Machine
end

