-- ==== Sys2Proof/Laws/Decode.lean ====
section
/-! SUPPORT. Laws/Decode: the fields of a packed word, register fields, bytes of a word, and the decoder at each opcode. -/

namespace Sys2Proof

/-! ### Fields and packing (R61, R63) -/

theorem opcodeField_pack (o d s t : Nibble) : opcodeField (pack o d s t) = o := by
  apply BitVec.eq_of_getLsbD_eq
  intro k hk
  simp only [opcodeField, pack, BitVec.getLsbD_extractLsb', BitVec.getLsbD_append, hk, decide_true, Bool.true_and]
  rw [if_neg (by omega), if_neg (by omega), if_neg (by omega)]
  congr 1; omega

theorem rdField_pack (o d s t : Nibble) : rdField (pack o d s t) = d := by
  apply BitVec.eq_of_getLsbD_eq
  intro k hk
  simp only [rdField, pack, BitVec.getLsbD_extractLsb', BitVec.getLsbD_append, hk, decide_true, Bool.true_and]
  rw [if_neg (by omega), if_neg (by omega), if_pos (by omega)]
  congr 1; omega

theorem rs1Field_pack (o d s t : Nibble) : rs1Field (pack o d s t) = s := by
  apply BitVec.eq_of_getLsbD_eq
  intro k hk
  simp only [rs1Field, pack, BitVec.getLsbD_extractLsb', BitVec.getLsbD_append, hk, decide_true, Bool.true_and]
  rw [if_neg (by omega), if_pos (by omega)]
  congr 1; omega

theorem rs2Field_pack (o d s t : Nibble) : rs2Field (pack o d s t) = t := by
  apply BitVec.eq_of_getLsbD_eq
  intro k hk
  simp only [rs2Field, pack, BitVec.getLsbD_extractLsb', BitVec.getLsbD_append, hk, decide_true, Bool.true_and]
  rw [if_pos (by omega)]
  congr 1; omega

/-- A word is its four fields (R63). -/
theorem pack_fields (w : HalfWord) : pack (opcodeField w) (rdField w) (rs1Field w) (rs2Field w) = w := by
  apply BitVec.eq_of_getLsbD_eq
  intro k hk
  simp only [pack, opcodeField, rdField, rs1Field, rs2Field, BitVec.getLsbD_extractLsb', BitVec.getLsbD_append]
  split
  · next h => simp [h]
  · split
    · next h => rw [decide_eq_true (by omega), Bool.true_and]; congr 1; omega
    · split
      · next h => rw [decide_eq_true (by omega), Bool.true_and]; congr 1; omega
      · next h => rw [decide_eq_true (by omega), Bool.true_and]; congr 1; omega

/-! ### Register fields (R66) -/

@[simp] theorem regOf_regField (r : Reg) : regOf (regField r) = r := by
  apply Fin.ext
  simp only [regOf, regField, BitVec.toNat_ofNat]
  exact Nat.mod_eq_of_lt r.isLt

@[simp] theorem regField_regOf (f : Nibble) : regField (regOf f) = f := by
  simp [regOf, regField]

/-! ### Bytes of a word (R62) -/

theorem wordOfBytes_halves (w : HalfWord) : wordOfBytes (w.extractLsb' 8 8) (w.extractLsb' 0 8) = w :=
  Machine.extract_append_extract (p := 8) (q := 8) w

theorem decodeBytes_bytesOfWord (w : HalfWord) (rest : List Byte) :
    decodeBytes (bytesOfWord w ++ rest) = .ok (decodeWord w, rest) := by
  simp [bytesOfWord, decodeBytes, wordOfBytes_halves]

/-! ### The decoder at each opcode (R67) -/

/-- A packed word decodes by its four fields. -/
theorem decodeWord_pack (o d s t : Nibble) : decodeWord (pack o d s t) = instrOfFields o d s t := by
  simp only [decodeWord, opcodeField_pack, rdField_pack, rs1Field_pack, rs2Field_pack]

/-- The instruction decoded keeps its opcode field, which says which row it is. -/
theorem opcode_instrOfFields (o d s t : Nibble) : (instrOfFields o d s t).opcode = o := by
  apply BitVec.eq_of_toNat_eq
  unfold instrOfFields
  split <;> simp_all [Instr.opcode]

theorem opcode_decodeWord (w : HalfWord) : (decodeWord w).opcode = opcodeField w := opcode_instrOfFields _ _ _ _

theorem operandFields_instrOfFields (o d s t : Nibble) : (instrOfFields o d s t).operandFields = (d, s, t) := by
  unfold instrOfFields
  split <;> simp [Instr.operandFields]

/-- What is decoded is well-formed. -/
theorem wellFormed_instrOfFields (o d s t : Nibble) : (instrOfFields o d s t).wellFormed = true := by
  unfold instrOfFields
  split <;> simp only [Instr.wellFormed, decide_eq_true_eq]
  have h := o.isLt
  by_contra hn
  have hlt : o.toNat < 12 := by omega
  interval_cases o.toNat <;> simp_all

end Sys2Proof
end

