-- ==== Sys2Proof/Laws/Exec.lean ====
section
/-! SUPPORT. Laws/Exec: what each meaning answers, what the step does, and what a next state can be; later proofs cite these
and unfold no meaning. -/

namespace Sys2Proof.Machine

/-! ### The shared operations, each said once -/

/-- Writing a register does that and nothing else (R85). -/
theorem State.setReg_writesRegister (s : State) (rd : Reg) (v : Word) : WritesRegister rd v s (s.setReg rd v) :=
  ⟨by simp, fun r h => by simp [h], rfl, fun _ => rfl, rfl, rfl⟩

/-- So it does after a draw (R108). -/
theorem State.nextDraw_setReg_writesRegister (s : State) (rd : Reg) (v : Word) :
    WritesRegister rd v s (s.nextDraw.setReg rd v) :=
  ⟨by simp, fun r h => by simp [h], rfl, fun _ => rfl, rfl, rfl⟩

/-- Taking an exception changes status and cause and nothing else (R87, R160). -/
theorem State.raise_raises (s : State) (c : Cause) : Raises c s (s.raise c) :=
  ⟨rfl, rfl, fun _ => rfl, rfl, fun _ => rfl⟩

/-- A launch of a program that fits (R191). -/
theorem State.launch_fits {s : State} {p : List HalfWord} (h : 2 * p.length ≤ Config.memSize) :
    s.launch p = { s.zeroed with mem := Memory.writeWords [] 0 p, status := .running } := by
  unfold State.launch State.load
  rw [if_neg (by omega)]
  rfl

/-- A launch of a program that does not fit (R165). -/
theorem State.launch_too_long {s : State} {p : List HalfWord} (h : Config.memSize < 2 * p.length) :
    s.launch p = s.zeroed.raise (.outOfBounds .program firstOffsetBeyond) := by
  unfold State.launch State.load
  rw [if_pos h]

/-! ### The meanings, one equation each -/

theorem exec_add (rd rs1 rs2 : Reg) (s : State) :
    exec (.add rd rs1 rs2) s = .next (s.setReg rd (s.reg rs1 + s.reg rs2)) := rfl

theorem exec_sub (rd rs1 rs2 : Reg) (s : State) :
    exec (.sub rd rs1 rs2) s = .next (s.setReg rd (s.reg rs1 - s.reg rs2)) := rfl

theorem exec_and (rd rs1 rs2 : Reg) (s : State) :
    exec (.and rd rs1 rs2) s = .next (s.setReg rd (s.reg rs1 &&& s.reg rs2)) := rfl

theorem exec_or (rd rs1 rs2 : Reg) (s : State) :
    exec (.or rd rs1 rs2) s = .next (s.setReg rd (s.reg rs1 ||| s.reg rs2)) := rfl

theorem exec_xor (rd rs1 rs2 : Reg) (s : State) :
    exec (.xor rd rs1 rs2) s = .next (s.setReg rd (s.reg rs1 ^^^ s.reg rs2)) := rfl

/-- A shift, in range or oversized (R106, R107, R108). -/
theorem shiftWriteBack_eq (op : ShiftOp) (rd rs1 rs2 : Reg) (s : State) :
    shiftWriteBack op rd rs1 rs2 s =
      if (s.reg rs2).toNat < 32 then .next (s.setReg rd (shiftInRange op (s.reg rs1) (s.reg rs2)))
      else .next (s.nextDraw.setReg rd (Config.shiftOversize op (s.reg rs1) (s.reg rs2) s.draws)) := by
  have e : shiftWriteBack op rd rs1 rs2 s =
      if oversized (s.reg rs2) then
        .next (s.nextDraw.setReg rd (Config.shiftOversize op (s.reg rs1) (s.reg rs2) s.draws))
      else .next (s.setReg rd (shiftInRange op (s.reg rs1) (s.reg rs2))) := rfl
  rw [e]
  by_cases h : (s.reg rs2).toNat < 32
  · rw [if_neg (by rw [oversized, decide_eq_true_eq]; omega), if_pos h]
  · rw [if_pos (by rw [oversized, decide_eq_true_eq]; omega), if_neg h]

theorem exec_sll (rd rs1 rs2 : Reg) (s : State) :
    exec (.sll rd rs1 rs2) s = shiftWriteBack .sll rd rs1 rs2 s := rfl

theorem exec_srl (rd rs1 rs2 : Reg) (s : State) :
    exec (.srl rd rs1 rs2) s = shiftWriteBack .srl rd rs1 rs2 s := rfl

theorem exec_ldr (rd rs1 : Reg) (n : Nibble) (s : State) :
    exec (.ldr rd rs1 n) s =
      if (s.reg rs1).toNat + 3 < Config.memSize then .next (s.setReg rd (s.mem.read32 (s.reg rs1).toNat))
      else .next (s.raise (.outOfBounds .load (s.reg rs1).toNat)) := by
  simp only [exec, execLdr, effectiveAddress, Memory.loadWord_eq]
  by_cases h : (s.reg rs1).toNat + 3 < Config.memSize
  · simp only [if_pos h]
  · simp only [if_neg h]

theorem exec_str (rd rs1 : Reg) (n : Nibble) (s : State) :
    exec (.str rd rs1 n) s =
      if (s.reg rd).toNat + 3 < Config.memSize then
        .next (s.setMem (s.mem.write32 (s.reg rd).toNat (s.reg rs1)))
      else .next (s.raise (.outOfBounds .store (s.reg rd).toNat)) := by
  simp only [exec, execStr, effectiveAddress, sourceValue, Memory.storeWord_eq]
  by_cases h : (s.reg rd).toNat + 3 < Config.memSize
  · simp only [if_pos h]
  · simp only [if_neg h]

theorem exec_beq (rd rs1 rs2 : Reg) (s : State) :
    exec (.beq rd rs1 rs2) s = .next (if s.reg rs1 = s.reg rs2 then s.setPc (s.reg rd) else s) := by
  simp only [exec, execBeq, beqCondition, sourceValue, branchTarget, beq_iff_eq]
  split <;> rfl

theorem exec_halt (a b c : Nibble) (s : State) : exec (.halt a b c) s = .next s.halt := rfl

theorem exec_illegalOpcode11 (a b c : Nibble) (s : State) :
    exec (.illegalOpcode11 a b c) s = .next (s.raise (.illegalOpcode 11)) := rfl

theorem exec_illegalOpcodes12to15 (o a b c : Nibble) (s : State) :
    exec (.illegalOpcodes12to15 o a b c) s = .next (s.raise (.illegalOpcode o)) := rfl

/-! ### What a next state of `exec` can be -/

/-- Everything an instruction with fields `o d a b` can do to the state that fetch leaves. -/
inductive ExecEffect (o d a b : Nibble) (s : State) : State → Prop where
  /-- an opcode 0 to 6 writes `x[rd]`, with no draw -/
  | alu (v : Word) (ho : o.toNat ≤ 6) (hv : (∀ r, s.reg r = 0) → v = 0)
      (hn : o.toNat = 5 ∨ o.toNat = 6 → (s.reg (regOf b)).toNat < 32) :
      ExecEffect o d a b s (s.setReg (regOf d) v)
  /-- an oversized shift writes `x[rd]` with a drawn value -/
  | draw (v : Word) (ho : o.toNat = 5 ∨ o.toNat = 6) (hn : 32 ≤ (s.reg (regOf b)).toNat) :
      ExecEffect o d a b s (s.nextDraw.setReg (regOf d) v)
  /-- a load in bounds -/
  | load (ho : o.toNat = 7) (hb : (s.reg (regOf a)).toNat + 3 < Config.memSize) :
      ExecEffect o d a b s (s.setReg (regOf d) (s.mem.read32 (s.reg (regOf a)).toNat))
  /-- a load out of bounds -/
  | loadFault (ho : o.toNat = 7) (hb : ¬ (s.reg (regOf a)).toNat + 3 < Config.memSize) :
      ExecEffect o d a b s (s.raise (.outOfBounds .load (s.reg (regOf a)).toNat))
  /-- a store in bounds -/
  | store (ho : o.toNat = 8) (hb : (s.reg (regOf d)).toNat + 3 < Config.memSize) :
      ExecEffect o d a b s (s.setMem (s.mem.write32 (s.reg (regOf d)).toNat (s.reg (regOf a))))
  /-- a store out of bounds -/
  | storeFault (ho : o.toNat = 8) (hb : ¬ (s.reg (regOf d)).toNat + 3 < Config.memSize) :
      ExecEffect o d a b s (s.raise (.outOfBounds .store (s.reg (regOf d)).toNat))
  /-- a taken branch -/
  | taken (ho : o.toNat = 9) (h : s.reg (regOf a) = s.reg (regOf b)) :
      ExecEffect o d a b s (s.setPc (s.reg (regOf d)))
  /-- a branch not taken -/
  | notTaken (ho : o.toNat = 9) (h : s.reg (regOf a) ≠ s.reg (regOf b)) : ExecEffect o d a b s s
  /-- a halt -/
  | halt (ho : o.toNat = 10) : ExecEffect o d a b s s.halt
  /-- an illegal opcode -/
  | illegal (ho : 11 ≤ o.toNat) : ExecEffect o d a b s (s.raise (.illegalOpcode o))

/-- Executing four fields answers a next state, which is one of `ExecEffect`'s. -/
theorem exec_instrOfFields (o d a b : Nibble) (s : State) :
    ∃ t, exec (instrOfFields o d a b) s = .next t ∧ ExecEffect o d a b s t := by
  have shift (op : ShiftOp) (ho : o.toNat = 5 ∨ o.toNat = 6) :
      ∃ t, shiftWriteBack op (regOf d) (regOf a) (regOf b) s = .next t ∧ ExecEffect o d a b s t := by
    rw [shiftWriteBack_eq]
    split
    · next hn =>
      refine ⟨_, rfl, .alu _ (by omega) (fun h0 => ?_) (fun _ => hn)⟩
      cases op <;> simp [shiftInRange, h0]
    · next hn => exact ⟨_, rfl, .draw _ ho (by omega)⟩
  unfold instrOfFields
  split
  case h_1 ho => exact ⟨_, exec_add .., .alu _ (by omega) (fun h => by simp [h]) (by omega)⟩
  case h_2 ho => exact ⟨_, exec_sub .., .alu _ (by omega) (fun h => by simp [h]) (by omega)⟩
  case h_3 ho => exact ⟨_, exec_and .., .alu _ (by omega) (fun h => by simp [h]) (by omega)⟩
  case h_4 ho => exact ⟨_, exec_or .., .alu _ (by omega) (fun h => by simp [h]) (by omega)⟩
  case h_5 ho => exact ⟨_, exec_xor .., .alu _ (by omega) (fun h => by simp [h]) (by omega)⟩
  case h_6 ho => exact shift .sll (.inl ho)
  case h_7 ho => exact shift .srl (.inr ho)
  case h_8 ho =>
    rw [exec_ldr]
    split
    · next hb => exact ⟨_, rfl, .load ho hb⟩
    · next hb => exact ⟨_, rfl, .loadFault ho hb⟩
  case h_9 ho =>
    rw [exec_str]
    split
    · next hb => exact ⟨_, rfl, .store ho hb⟩
    · next hb => exact ⟨_, rfl, .storeFault ho hb⟩
  case h_10 ho =>
    rw [exec_beq]
    refine ⟨_, rfl, ?_⟩
    split
    · next h => exact .taken ho h
    · next h => exact .notTaken ho h
  case h_11 ho => exact ⟨_, exec_halt .., .halt ho⟩
  case h_12 ho =>
    have : o = 11 := BitVec.eq_of_toNat_eq ho
    subst this
    exact ⟨_, exec_illegalOpcode11 .., .illegal (by decide)⟩
  case h_13 =>
    refine ⟨_, exec_illegalOpcodes12to15 .., .illegal ?_⟩
    have h := wellFormed_instrOfFields o d a b
    by_contra hn
    have hlt : o.toNat < 12 := by omega
    interval_cases o.toNat <;> simp_all

/-! ### The step -/

theorem State.nextWord_eq (s : State) : s.mem.read16 s.pc.toNat = s.nextWord := rfl

/-- Fetch, both ways (R81). -/
theorem State.fetch_eq (s : State) :
    s.fetch = if s.canFetch then .ok (s.nextWord, s.advance) else .error (.outOfBounds .fetch s.pc.toNat) := by
  simp only [State.fetch, Memory.fetchWord_eq, State.nextWord_eq]
  by_cases h : s.canFetch
  · simp only [if_pos h]
  · simp only [if_neg h]

/-- A step outside `Running` (R80, R195). -/
theorem step_ended {s : State} (h : s.status ≠ .running) : step s = .next s := by
  unfold step
  split <;> simp_all

/-- A step that fetches (R90). -/
theorem step_fetched {s : State} (h : s.status = .running) (hf : s.canFetch) :
    step s = exec (decodeWord s.nextWord) s.advance := by
  unfold step
  rw [h, State.fetch_eq, if_pos hf]

/-- A step whose fetch leaves memory (R163). -/
theorem step_fetch_fault {s : State} (h : s.status = .running) (hf : ¬ s.canFetch) :
    step s = .next (s.raise (.outOfBounds .fetch s.pc.toNat)) := by
  unfold step
  rw [h, State.fetch_eq, if_neg hf]

/-- Everything a step can do. -/
inductive StepEffect (s : State) : State → Prop where
  | ended (h : s.status ≠ .running) : StepEffect s s
  | fetchFault (h : s.status = .running) (hf : ¬ s.canFetch) :
      StepEffect s (s.raise (.outOfBounds .fetch s.pc.toNat))
  | executed {t : State} (h : s.status = .running) (hf : s.canFetch)
      (he : ExecEffect (opcodeField s.nextWord) (rdField s.nextWord) (rs1Field s.nextWord) (rs2Field s.nextWord)
        s.advance t) : StepEffect s t

/-- A step answers a next state, which is one of `StepEffect`'s. -/
theorem step_effect (s : State) : ∃ t, step s = .next t ∧ StepEffect s t := by
  by_cases h : s.status = .running
  · by_cases hf : s.canFetch
    · obtain ⟨t, ht, he⟩ := exec_instrOfFields (opcodeField s.nextWord) (rdField s.nextWord) (rs1Field s.nextWord)
        (rs2Field s.nextWord) s.advance
      exact ⟨t, by rw [step_fetched h hf]; exact ht, .executed h hf he⟩
    · exact ⟨_, step_fetch_fault h hf, .fetchFault h hf⟩
  · exact ⟨_, step_ended h, .ended h⟩

/-- The advanced `pc` never wraps (R29). -/
theorem State.advance_pc_toNat {s : State} (hf : s.canFetch) : s.advance.pc.toNat = s.pc.toNat + 2 := by
  have h2 : (2 : Word).toNat = 2 := rfl
  rw [State.advance_pc, BitVec.toNat_add, h2]
  have : s.pc.toNat + 1 < 256 := hf
  omega

/-! ### Runs -/

@[simp] theorem run_zero (s : State) : run 0 s = .next s := rfl

/-- One more step of fuel, for a state that steps to `t` (R196). -/
theorem run_succ {s t : State} (k : Nat) (h : step s = .next t) : run (k + 1) s = run k t := by
  by_cases hr : s.status = .running
  · simp only [run, hr, h]
  · have hst : t = s := by
      have := step_ended hr
      rw [h] at this
      injection this
    subst hst
    have ended : ∀ j, run j t = .next t := by
      intro j
      cases j with
      | zero => rfl
      | succ j => unfold run; split <;> simp_all
    rw [ended, ended]

end Sys2Proof.Machine
end

