-- ==== Sys2Proof/Laws/PerInstr.lean ====
section
/-! SUPPORT. Laws/PerInstr: what is said of every instruction as syntax, one lemma per constructor. -/

namespace Sys2Proof

/-- The four fields of an instruction's word are the ones R60 and R67 give it, and its word as bytes has them in R62's
order: `opcode ++ rd` in the byte at its address, `rs1 ++ rs2` in the next. -/
def Laws.EncodeFields.Statement (i : Instr) : Prop :=
  opcodeField (encode i) = i.opcode ∧
  (rdField (encode i), rs1Field (encode i), rs2Field (encode i)) = i.operandFields ∧
  bytesOfWord (encode i) = [i.opcode ++ i.operandFields.1, i.operandFields.2.1 ++ i.operandFields.2.2]

/-- The shared part of the family: the fields of a packed word. -/
theorem Laws.EncodeFields.of_pack (i : Instr) : Laws.EncodeFields.Statement i := by
  refine ⟨opcodeField_pack _ _ _ _, ?_, ?_⟩
  · simp only [encode, rdField_pack, rs1Field_pack, rs2Field_pack]
  · have hi : ∀ o d s t : Nibble, (pack o d s t).extractLsb' 8 8 = o ++ d := by
      intro o d s t
      apply BitVec.eq_of_getLsbD_eq
      intro k hk
      simp only [pack, BitVec.getLsbD_extractLsb', BitVec.getLsbD_append, hk, decide_true, Bool.true_and]
      rw [if_neg (by omega), if_neg (by omega)]
      have e : 8 + k - 4 - 4 = k := by omega
      rw [e]
    have lo : ∀ o d s t : Nibble, (pack o d s t).extractLsb' 0 8 = s ++ t := by
      intro o d s t
      apply BitVec.eq_of_getLsbD_eq
      intro k hk
      simp only [pack, BitVec.getLsbD_extractLsb', BitVec.getLsbD_append, hk, decide_true, Bool.true_and, Nat.zero_add]
      split
      · rfl
      · rw [if_pos (by omega)]
    simp only [bytesOfWord, encode, hi, lo]

theorem Laws.EncodeFields.add (rd rs1 rs2 : Reg) : Laws.EncodeFields.Statement (.add rd rs1 rs2) := of_pack _
theorem Laws.EncodeFields.sub (rd rs1 rs2 : Reg) : Laws.EncodeFields.Statement (.sub rd rs1 rs2) := of_pack _
theorem Laws.EncodeFields.and (rd rs1 rs2 : Reg) : Laws.EncodeFields.Statement (.and rd rs1 rs2) := of_pack _
theorem Laws.EncodeFields.or (rd rs1 rs2 : Reg) : Laws.EncodeFields.Statement (.or rd rs1 rs2) := of_pack _
theorem Laws.EncodeFields.xor (rd rs1 rs2 : Reg) : Laws.EncodeFields.Statement (.xor rd rs1 rs2) := of_pack _
theorem Laws.EncodeFields.sll (rd rs1 rs2 : Reg) : Laws.EncodeFields.Statement (.sll rd rs1 rs2) := of_pack _
theorem Laws.EncodeFields.srl (rd rs1 rs2 : Reg) : Laws.EncodeFields.Statement (.srl rd rs1 rs2) := of_pack _
theorem Laws.EncodeFields.ldr (rd rs1 : Reg) (rs2 : Nibble) : Laws.EncodeFields.Statement (.ldr rd rs1 rs2) := of_pack _
theorem Laws.EncodeFields.str (rd rs1 : Reg) (rs2 : Nibble) : Laws.EncodeFields.Statement (.str rd rs1 rs2) := of_pack _
theorem Laws.EncodeFields.beq (rd rs1 rs2 : Reg) : Laws.EncodeFields.Statement (.beq rd rs1 rs2) := of_pack _
theorem Laws.EncodeFields.halt (rd rs1 rs2 : Nibble) : Laws.EncodeFields.Statement (.halt rd rs1 rs2) := of_pack _
theorem Laws.EncodeFields.illegalOpcode11 (rd rs1 rs2 : Nibble) :
    Laws.EncodeFields.Statement (.illegalOpcode11 rd rs1 rs2) := of_pack _
theorem Laws.EncodeFields.illegalOpcodes12to15 (opcode rd rs1 rs2 : Nibble) :
    Laws.EncodeFields.Statement (.illegalOpcodes12to15 opcode rd rs1 rs2) := of_pack _

end Sys2Proof
end

