-- ==== Sys2Proof/Tests/Slice0.lean ====
section
/-! SUPPORT. Tests/Slice0: the smoke test of WellFormed, words written out from the spec's encodings, at most two vectors of
95_test_vectors.md per instruction (each one step), and witnesses for the hypotheses of the obligations. -/

namespace Sys2Proof.Tests

open Sys2Proof Sys2Proof.Machine

/-! ### Helpers -/

/-- The reset state with a `pc`, some registers and a memory. -/
def stateAt (pc : Word) (regs : List (Reg × Word)) (mem : Memory) : State :=
  regs.foldl (fun s p => s.setReg p.1 p.2) { State.reset with pc := pc, mem := mem }

/-- The same with the word `w` at `pc`. -/
def withWord (w : HalfWord) (pc : Word) (regs : List (Reg × Word)) (mem : Memory) : State :=
  stateAt pc regs (mem.write16 pc.toNat w)

/-- The outcome is a next state of which `p` holds. -/
def nextIs (o : Outcome) (p : State → Bool) : Bool :=
  match o with
  | .next t => p t
  | .fault _ => false
  | .refused _ => false

/-! ### WellFormed -/

theorem test_illegal_row_refuses_opcode_11 : (Instr.illegalOpcodes12to15 11 0 0 0).wellFormed = false := by decide
theorem test_illegal_row_refuses_opcode_0 : (Instr.illegalOpcodes12to15 0 1 2 3).wellFormed = false := by decide
theorem test_illegal_row_takes_opcode_12 : (Instr.illegalOpcodes12to15 12 0 0 0).wellFormed = true := by decide
theorem test_illegal_row_takes_opcode_15 : (Instr.illegalOpcodes12to15 15 1 2 3).wellFormed = true := by decide

/-! ### Decoding: every constructor, from words written out field by field (30_encoding.md; vectors E1 to E8) -/

theorem test_decode_add : decodeWord 0b0000000100000000 = .add 1 0 0 := by decide
theorem test_decode_sub : decodeWord 0b0001001000000001 = .sub 2 0 1 := by decide
theorem test_decode_and : decodeWord 0b0010001100010010 = .and 3 1 2 := by decide
theorem test_decode_or : decodeWord 0b0011001100010010 = .or 3 1 2 := by decide
theorem test_decode_xor : decodeWord 0b0100001100010010 = .xor 3 1 2 := by decide
theorem test_decode_sll : decodeWord 0b0101011100110110 = .sll 7 3 6 := by decide
theorem test_decode_srl : decodeWord 0b0110001100010010 = .srl 3 1 2 := by decide
theorem test_decode_ldr : decodeWord 0b0111000100000101 = .ldr 1 0 5 := by decide
theorem test_decode_str : decodeWord 0b1000011100010000 = .str 7 1 0 := by decide
theorem test_decode_beq : decodeWord 0b1001111111101101 = .beq 15 14 13 := by decide
theorem test_decode_halt : decodeWord 0b1010010110100101 = .halt 5 10 5 := by decide
theorem test_decode_illegal_11 : decodeWord 0b1011111111111111 = .illegalOpcode11 15 15 15 := by decide
theorem test_decode_illegal_12 : decodeWord 0b1100001101000101 = .illegalOpcodes12to15 12 3 4 5 := by decide
theorem test_decode_illegal_15 : decodeWord 0b1111000100100011 = .illegalOpcodes12to15 15 1 2 3 := by decide
theorem test_encode_beq : encode (.beq 12 10 11) = 0x9CAB := by decide

/-- Vector E9: the byte at the lower address holds opcode and rd (R62). -/
theorem test_bytes_of_word : bytesOfWord 0x9CAB = [0x9C, 0xAB] := by decide

theorem test_decode_truncated : decodeBytes [0x9C] = .error .truncated := by rfl
theorem test_decode_table_word : decodeTableWord 16 0x7870 = some (.ldr 8 7 0) := by decide

/-! ### ALU (vectors A1 to A33) -/

theorem test_add_carry_dropped :
    nextIs (step (withWord 0x0312 0x20 [(1, 0xFFFFFFFF), (2, 1)] [])) (fun t => t.reg 3 == 0 && t.pc == 0x22) := by decide
theorem test_add_same_registers :
    nextIs (step (withWord 0x0111 0x20 [(1, 0x80000001)] [])) (fun t => t.reg 1 == 2) := by decide
theorem test_sub_borrow_dropped :
    nextIs (step (withWord 0x1312 0x20 [(1, 3), (2, 5)] [])) (fun t => t.reg 3 == 0xFFFFFFFE) := by decide
theorem test_and :
    nextIs (step (withWord 0x2312 0x20 [(1, 0xF0F0F0F0), (2, 0x0FF00FF0)] [])) (fun t => t.reg 3 == 0x00F000F0) := by
  decide
theorem test_or :
    nextIs (step (withWord 0x3312 0x20 [(1, 0xF0F0F0F0), (2, 0x0FF00FF0)] [])) (fun t => t.reg 3 == 0xFFF0FFF0) := by
  decide
theorem test_xor :
    nextIs (step (withWord 0x4312 0x20 [(1, 0xFFFFFFFF), (2, 0x12345678)] [])) (fun t => t.reg 3 == 0xEDCBA987) := by
  decide
theorem test_sll_destination_is_amount :
    nextIs (step (withWord 0x5212 0x20 [(1, 3), (2, 2)] [])) (fun t => t.reg 2 == 12) := by decide
/-- Vector A20: any value, no fault, `pc` as usual. -/
theorem test_sll_oversized_goes_on :
    nextIs (step (withWord 0x5312 0x20 [(1, 1), (2, 32)] []))
      (fun t => t.pc == 0x22 && t.status == .running && t.reg 1 == 1 && t.reg 2 == 32) := by decide
theorem test_srl_is_logical :
    nextIs (step (withWord 0x6312 0x20 [(1, 0x80000000), (2, 31)] [])) (fun t => t.reg 3 == 1) := by decide
/-- Vector A27. -/
theorem test_srl_oversized_goes_on :
    nextIs (step (withWord 0x6312 0x20 [(1, 0x80000000), (2, 32)] []))
      (fun t => t.pc == 0x22 && t.status == .running && t.reg 1 == 0x80000000) := by decide

/-! ### Load and store (vectors L1 to L14) -/

theorem test_ldr_last_address :
    nextIs (step (withWord 0x7120 0x20 [(2, 252)] [(252, 0x11), (253, 0x22), (254, 0x33), (255, 0x44)]))
      (fun t => t.reg 1 == 0x11223344 && t.pc == 0x22) := by decide
theorem test_ldr_out_of_bounds :
    nextIs (step (withWord 0x7120 0x20 [(2, 253), (1, 0x5555)] []))
      (fun t => t.status == .faulted && t.cause == some (.outOfBounds .load 253) && t.reg 1 == 0x5555 && t.pc == 0x22) := by
  decide
theorem test_str_unaligned :
    nextIs (step (withWord 0x8210 0x20 [(2, 0x43), (1, 0x01020304)] []))
      (fun t => t.mem == [(0x20, 0x82), (0x21, 0x10), (0x43, 1), (0x44, 2), (0x45, 3), (0x46, 4)]) := by decide
theorem test_str_out_of_bounds :
    nextIs (step (withWord 0x8210 0x20 [(2, 253), (1, 0xAABBCCDD)] []))
      (fun t => t.cause == some (.outOfBounds .store 253) && t.mem == [(0x20, 0x82), (0x21, 0x10)] && t.pc == 0x22) := by
  decide

/-! ### Control and exceptions (vectors B1 to B8, H1, H2, X1 to X13) -/

theorem test_beq_taken :
    nextIs (step (withWord 0x9CAB 0x18 [(10, 3), (11, 3), (12, 0x1C)] [])) (fun t => t.pc == 0x1C) := by decide
theorem test_beq_not_taken :
    nextIs (step (withWord 0x9CAB 0x18 [(10, 2), (11, 3), (12, 0x1C)] [])) (fun t => t.pc == 0x1A) := by decide
theorem test_halt_at_the_last_word :
    nextIs (step (withWord 0xA000 254 [] [])) (fun t => t.status == .halted && t.pc == 256) := by decide
theorem test_halt_ignores_fields :
    nextIs (step (withWord 0xAFFF 6 [] [])) (fun t => t.status == .halted && t.pc == 8) := by decide
theorem test_illegal_11_before_data_bound :
    nextIs (step (withWord 0xB725 0 [(2, 1000)] []))
      (fun t => t.status == .faulted && t.cause == some (.illegalOpcode 11) && t.pc == 2) := by decide
theorem test_illegal_12 :
    nextIs (step (withWord 0xC345 0x10 [] [])) (fun t => t.cause == some (.illegalOpcode 12) && t.pc == 0x12) := by decide
theorem test_illegal_15 :
    nextIs (step (withWord 0xF000 0 [] [])) (fun t => t.cause == some (.illegalOpcode 15)) := by decide
theorem test_fetch_bound :
    nextIs (step (stateAt 255 [] [(255, 0xB0)]))
      (fun t => t.status == .faulted && t.cause == some (.outOfBounds .fetch 255) && t.pc == 255) := by decide

/-! ### Launch, host, assembler -/

/-- The image of program P1 (two words of it). -/
theorem test_launch_image :
    (State.reset.launch [0x0100, 0x0111]).mem = [(0, 0x01), (2, 0x01), (3, 0x11)] := by decide
/-- Vector X9. -/
theorem test_launch_too_long :
    (State.reset.launch (List.replicate 129 0xFFFF)).cause = some (.outOfBounds .program 256) := by
  unfold State.launch State.load
  rw [if_pos (by rw [List.length_replicate]; decide)]
  rfl
theorem test_codes :
    (Status.faulted.code, (Cause.outOfBounds .fetch 0).kindCode, Access.program.code) = (2, 2, 3) := by decide
theorem test_read_memory : (stateAt 0 [] [(1, 7)]).readMemory 0 3 = some [0, 7, 0] := by decide
theorem test_assemble_ldr : assembleText "LDR R8, [r7]".toList = some 0x7870 := by decide
theorem test_assemble_str : assembleText "STR [R7], R1".toList = some 0x8710 := by decide
theorem test_assemble_general : assembleText "LDR R1, R0, R5".toList = some 0x7105 := by decide
theorem test_assemble_beq : assembleText "BEQ R12, R10, R11".toList = some 0x9CAB := by decide
theorem test_assemble_word : assembleText ".word 0xBEef".toList = some 0xBEEF := by decide
theorem test_assemble_nop : assembleText "NOP".toList = some 0x3000 := by decide
theorem test_assemble_refuses_r16 : assembleText "CLR R16".toList = none := by decide

/-! ### Witnesses: states and operands that meet the hypotheses of the obligations, clause by clause -/

theorem witness_DecodeOfEncodeIsIdentity :
    (Instr.illegalOpcodes12to15 12 1 2 3).wellFormed = true ∧ (Instr.illegalOpcodes12to15 15 1 2 3).wellFormed = true ∧
      (Instr.ldr 15 0 15).wellFormed = true := by decide

theorem witness_EncodeOfDecodeIsIdentity :
    (Instr.ldr 1 0 5).wellFormed = true ∧ encode (.ldr 1 0 5) = 0x7105 := by decide

theorem witness_IgnoredFieldsHaveNoEffect :
    10 ≤ (10 : Nibble).toNat ∧ (10 : Nibble) = 10 ∧ 10 ≤ (15 : Nibble).toNat := by decide

theorem witness_StepRunsTheDecodedInstruction :
    (withWord 0x7105 254 [] []).status = .running ∧ (withWord 0x7105 254 [] []).canFetch ∧
      decodeBytes [(withWord 0x7105 254 [] []).mem.get 254, (withWord 0x7105 254 [] []).mem.get 255] =
        .ok (.ldr 1 0 5, []) :=
  ⟨by decide, by decide, by rfl⟩

theorem witness_PlacedTableWordRunsNext : 0xFFFF < 2 ^ 16 := by decide

/-- The largest shift in range and the smallest oversized one: for SllWritesLeftShift, SrlWritesRightShift and
OversizedShiftWritesAFreeValue. -/
theorem witness_shift_amounts :
    ((stateAt 0 [(2, 31)] []).reg 2).toNat < 32 ∧ 32 ≤ ((stateAt 0 [(2, 32)] []).reg 2).toNat := by decide

theorem witness_LdrLoadsBigEndianWord :
    ((stateAt 0 [(2, 252)] []).reg 2).toNat + 3 < Config.memSize ∧
      Config.memSize ≤ ((stateAt 0 [(2, 253)] []).reg 2).toNat + 3 := by decide

theorem witness_StrStoresBigEndianWord :
    effectiveAddress 2 (stateAt 0 [(2, 252)] []) + 3 < Config.memSize ∧
      (255 < effectiveAddress 2 (stateAt 0 [(2, 252)] []) ∨ effectiveAddress 2 (stateAt 0 [(2, 252)] []) + 4 ≤ 256) ∧
      Config.memSize ≤ effectiveAddress 2 (stateAt 0 [(2, 253)] []) + 3 := by decide

/-- The store's own next state, with the address register unchanged, meets the inner hypotheses too. -/
theorem witness_LoadReturnsTheWordStored :
    ((stateAt 0 [(2, 252), (1, 5)] []).reg 2).toNat ≤ Config.memSize - 4 ∧
      nextIs (exec (.str 2 1 0) (stateAt 0 [(2, 252), (1, 5)] [])) (fun t => t.reg 2 == 252 && t.mem == [(255, 5)]) ∧
      Config.memSize - 4 < ((stateAt 0 [(2, 253)] []).reg 2).toNat := by decide

theorem witness_StoreIsSeenByTheVeryNextFetch :
    (withWord 0x8210 0x20 [(2, 0x22), (1, 0xA0000000)] []).AboutToRun (encode (.str 2 1 0)) ∧
      ((withWord 0x8210 0x20 [(2, 0x22), (1, 0xA0000000)] []).reg 2).toNat + 3 < Config.memSize ∧
      ((withWord 0x8210 0x20 [(2, 0x22), (1, 0xA0000000)] []).reg 2).toNat =
        (withWord 0x8210 0x20 [(2, 0x22), (1, 0xA0000000)] []).pc.toNat + 2 :=
  ⟨⟨by decide, by decide, by decide⟩, by decide, by decide⟩

theorem witness_MixedWidthsSeeTheSameBytes :
    ((stateAt 0 [(2, 252)] []).reg 2).toNat + 3 < Config.memSize := by decide

/-- Vector B5, and the smallest target that no fetch can read. -/
theorem witness_BeqCopiesItsTarget :
    (stateAt 0 [(1, 255)] []).status = .running ∧ (stateAt 0 [(1, 255)] []).reg 2 = (stateAt 0 [(1, 255)] []).reg 3 ∧
      Config.memSize ≤ ((stateAt 0 [(1, 255)] []).reg 1).toNat + 1 := by decide

/-- Vector B4: an odd target. -/
theorem witness_TakenBranchTargetRunsNext :
    (withWord 0x9123 0x30 [(1, 0x41)] []).AboutToRun (encode (.beq 1 2 3)) ∧
      (withWord 0x9123 0x30 [(1, 0x41)] []).reg 2 = (withWord 0x9123 0x30 [(1, 0x41)] []).reg 3 ∧
      ((withWord 0x9123 0x30 [(1, 0x41)] []).reg 1).toNat + 1 < Config.memSize :=
  ⟨⟨by decide, by decide, by decide⟩, by decide, by decide⟩

/-- Vector B6. -/
theorem witness_BranchToItselfNeverEnds :
    (withWord 0x9111 0x30 [(1, 0x30)] []).AboutToRun (encode (.beq 1 1 1)) ∧
      (withWord 0x9111 0x30 [(1, 0x30)] []).reg 1 = (withWord 0x9111 0x30 [(1, 0x30)] []).pc :=
  ⟨⟨by decide, by decide, by decide⟩, by decide⟩

theorem witness_IllegalOpcodeFaults :
    12 ≤ (12 : Nibble).toNat ∧ 12 ≤ (15 : Nibble).toNat ∧
      ((withWord 0xB000 0 [] []).AboutToRun 0xB000 ∧ 11 ≤ (opcodeField 0xB000).toNat) ∧
      (withWord 0xFFFF 254 [] []).AboutToRun 0xFFFF ∧ 11 ≤ (opcodeField 0xFFFF).toNat :=
  ⟨by decide, by decide, ⟨⟨by decide, by decide, by decide⟩, by decide⟩, ⟨by decide, by decide, by decide⟩, by decide⟩

theorem witness_FetchOutsideMemoryFaults :
    (stateAt 255 [] []).status = .running ∧ Config.memSize ≤ (stateAt 255 [] []).pc.toNat + 1 := by decide

/-- `Running` states whose step raises each of the four exceptions of a step. -/
theorem witness_ExceptionsArePrecise :
    (stateAt 255 [] []).status = .running ∧
      nextIs (step (stateAt 255 [] [])) (fun t => t.status == .faulted) ∧
      nextIs (step (withWord 0xB000 0 [] [])) (fun t => t.status == .faulted) ∧
      nextIs (step (withWord 0x7120 0 [(2, 253)] [])) (fun t => t.status == .faulted) ∧
      nextIs (step (withWord 0x8210 0 [(2, 253)] [])) (fun t => t.status == .faulted) := by decide

/-- `Running` states in each branch: fetch bound, illegal opcode, load bound, store bound, HALT, and none of them. -/
theorem witness_StatusAndCauseOfEveryStep :
    (stateAt 255 [] []).status = .running ∧
      (withWord 0xB000 254 [] []).status = .running ∧ 11 ≤ (opcodeField (withWord 0xB000 254 [] []).nextWord).toNat ∧
      opcodeField (withWord 0x7120 0 [(2, 253)] []).nextWord = 7 ∧
      opcodeField (withWord 0x8210 0 [(2, 253)] []).nextWord = 8 ∧
      opcodeField (withWord 0xA000 0 [] []).nextWord = 10 ∧ opcodeField State.reset.nextWord = 0 := by decide

theorem witness_PcAfterEveryStep :
    (stateAt 255 [] []).status = .running ∧ ¬ (stateAt 255 [] []).canFetch ∧
      (withWord 0x9123 0 [] []).canFetch ∧ opcodeField (withWord 0x9123 0 [] []).nextWord = 9 ∧
      (withWord 0x9123 0 [] []).reg 2 = (withWord 0x9123 0 [] []).reg 3 ∧ opcodeField State.reset.nextWord = 0 := by
  decide

theorem witness_OnlyAluAndLdrChangeTheirRegister :
    nextIs (step (withWord 0x0312 0 [(1, 1)] [])) (fun t => t.reg 3 != (withWord 0x0312 0 [(1, 1)] []).reg 3) := by decide

theorem witness_OnlyStrChangesItsFourBytes :
    nextIs (step (withWord 0x8210 0 [(2, 252), (1, 1)] []))
      (fun t => t.mem.get 255 != (withWord 0x8210 0 [(2, 252), (1, 1)] []).mem.get 255) := by decide

theorem witness_PcStaysEvenButForOddTargets :
    (withWord 0x9123 0 [(1, 0x41)] []).status = .running ∧ (withWord 0x9123 0 [(1, 0x41)] []).pc.toNat % 2 = 0 ∧
      nextIs (step (withWord 0x9123 0 [(1, 0x41)] [])) (fun t => t.pc.toNat % 2 == 1) := by decide

theorem witness_FetchNeverWrapsThePc : (stateAt 254 [] []).canFetch := by decide

theorem witness_EveryStepKeepsTheInvariant : State.reset.Inv ∧ step State.reset = .next (State.reset.setPc 2) :=
  ⟨⟨Memory.wf_nil, by decide, trivial⟩, by rfl⟩

/-- Reset meets it with no shift next; the second state with the largest shift in range next. -/
theorem witness_OnlyOversizedShiftsDependOnDraws :
    opcodeField State.reset.nextWord = 0 ∧ opcodeField (withWord 0x5312 0 [(2, 31)] []).nextWord = 5 ∧
      ((withWord 0x5312 0 [(2, 31)] []).reg (regOf (rs2Field (withWord 0x5312 0 [(2, 31)] []).nextWord))).toNat < 32 := by
  decide

theorem witness_ZeroRegistersStayZeroWithoutLoads :
    (∀ r, State.reset.reg r = 0) ∧ opcodeField State.reset.nextWord ≠ 7 := by decide

/-- 128 words fit and have a last one; 129 do not. -/
theorem witness_LaunchSetsTheWholeState :
    (List.replicate 128 (0 : HalfWord)).length ≤ Config.memSize / 2 ∧ 127 < (List.replicate 128 (0 : HalfWord)).length ∧
      2 * (List.replicate 127 (0 : HalfWord)).length ≤ 254 ∧
      Config.memSize / 2 < (List.replicate 129 (0 : HalfWord)).length := by
  simp only [List.length_replicate]; decide

theorem witness_EndedStatesNeverMove : State.reset.halt.ended ∧ (State.reset.raise (.illegalOpcode 11)).ended :=
  ⟨by unfold State.ended; decide, by unfold State.ended; decide⟩

theorem witness_RunEndIsUniqueAndFinal :
    EndsAfter 1 (withWord 0xA000 0 [] []) ((withWord 0xA000 0 [] []).advance.halt) where
  reached := by rfl
  ended := by unfold State.ended; decide
  first := by
    intro j u hj h
    obtain rfl : j = 0 := by omega
    injection h with h
    rw [← h]; rfl

theorem witness_HostRunReportsTheEnd :
    (withWord 0xA000 0 [] []).Inv ∧
      EndsAfter 1 (withWord 0xA000 0 [] []) ((withWord 0xA000 0 [] []).advance.halt) ∧ 0 < 1 :=
  ⟨⟨by decide, by decide, trivial⟩, witness_RunEndIsUniqueAndFinal, by decide⟩

theorem witness_EndedRunIsSafeExactlyWhenHalted :
    EndsAfter 1 (withWord 0xA000 0 [] []) ((withWord 0xA000 0 [] []).advance.halt) :=
  witness_RunEndIsUniqueAndFinal

theorem witness_ReportDistinguishesTheOutcomes :
    (State.reset.Inv ∧ State.reset.status = .running) ∧
      (State.reset.halt.Inv ∧ State.reset.halt.status = .halted) ∧
      (State.reset.raise (.illegalOpcode 11)).Inv ∧ (State.reset.raise (.illegalOpcode 11)).status = .faulted :=
  ⟨⟨⟨Memory.wf_nil, by decide, trivial⟩, rfl⟩, ⟨⟨Memory.wf_nil, by decide, trivial⟩, rfl⟩,
    ⟨Memory.wf_nil, by decide, show 11 ≤ 11 by decide⟩, rfl⟩

theorem witness_HostStepsAndReads : 252 + 4 ≤ Config.memSize ∧ 3 < ([0, 0, 0, 0] : List Byte).length := by decide

theorem witness_ZeroWordDoublesRegisterZero :
    ([] : List HalfWord).length ≤ Config.memSize / 2 ∧ 2 * ([] : List HalfWord).length ≤ (0 : Word).toNat := by decide

end Sys2Proof.Tests
end

/-! PROOF. The state (10_state.md): the invariant, which registers a step changes, where it leaves `pc`, and what a launch and
an ended state are. Each claim about a step is a case split over `StepEffect` and `ExecEffect` (Laws/Exec). -/

namespace Sys2Proof.Machine

/-! ### The effect of a step that answers `t` -/

theorem stepEffect_of_step {s t : State} (h : step s = .next t) : StepEffect s t := by
  obtain ⟨u, hu, he⟩ := step_effect s
  rw [h] at hu
  injection hu with hu
  exact hu ▸ he

/-! ### The state a launch leaves -/

/-- Every launch is one of two: of a program that fits (R191), and of one that does not (R165). -/
theorem State.launch_cases (s : State) (p : List HalfWord) :
    (2 * p.length ≤ Config.memSize ∧
      s.launch p = { s.zeroed with mem := Memory.writeWords [] 0 p, status := .running }) ∨
    (Config.memSize < 2 * p.length ∧ s.launch p = s.zeroed.raise (.outOfBounds .program firstOffsetBeyond)) := by
  rcases Nat.lt_or_ge Config.memSize (2 * p.length) with hlong | hfits
  · exact .inr ⟨hlong, State.launch_too_long hlong⟩
  · exact .inl ⟨hfits, State.launch_fits hfits⟩

/-! ### The invariant -/

/-- Outside `Faulted` the invariant leaves no fault report (R20). -/
theorem State.Inv.cause_none {s : State} (h : s.Inv) (hs : s.status ≠ .faulted) : s.cause = none := by
  rw [← Option.not_isSome_iff_eq_none, h.cause_present]
  exact hs

/-- Outside `Faulted` the invariant is canonical memory and no fault report. -/
theorem State.inv_of_not_faulted {s : State} (hm : s.mem.wf) (hs : s.status ≠ .faulted) (hc : s.cause = none) : s.Inv where
  memory := hm
  cause_present := by simp [hc, hs]
  cause_fits := by simp [State.causeFits, hc]

/-- An exception keeps the invariant where its report is one that R161 allows. -/
theorem State.inv_raise {s : State} {c : Cause} (hm : s.mem.wf) (hc : (s.raise c).causeFits) : (s.raise c).Inv where
  memory := hm
  cause_present := by simp
  cause_fits := hc

theorem State.Inv.advance {s : State} (h : s.Inv) (hr : s.status = .running) : s.advance.Inv :=
  State.inv_of_not_faulted h.memory (by simp [hr]) (h.cause_none (by simp [hr]))

/-- No instruction of the running core breaks the invariant: the three reports it can raise are those of R162 and R164, and a
store is in bounds. -/
theorem ExecEffect.inv {o d a b : Nibble} {s t : State} (he : ExecEffect o d a b s t) (h : s.Inv)
    (hr : s.status = .running) : t.Inv := by
  have hm : s.mem.wf := h.memory
  have hs : s.status ≠ .faulted := by simp [hr]
  have hc : s.cause = none := h.cause_none hs
  cases he with
  | alu v => exact State.inv_of_not_faulted hm hs hc
  | draw v => exact State.inv_of_not_faulted hm hs hc
  | load => exact State.inv_of_not_faulted hm hs hc
  | loadFault _ hb => exact State.inv_raise hm ⟨BitVec.isLt _, by omega⟩
  | store _ hb => exact State.inv_of_not_faulted (Memory.wf_write32 _ hm (by omega)) hs hc
  | storeFault _ hb => exact State.inv_raise hm ⟨BitVec.isLt _, by omega⟩
  | taken => exact State.inv_of_not_faulted hm hs hc
  | notTaken => exact h
  | halt => exact State.inv_of_not_faulted hm (by simp) hc
  | illegal ho => exact State.inv_raise hm ho

theorem StepEffect.inv {s t : State} (he : StepEffect s t) (h : s.Inv) : t.Inv := by
  cases he with
  | ended => exact h
  | fetchFault _ hf => exact State.inv_raise h.memory ⟨rfl, Nat.le_of_not_lt hf⟩
  | executed hr _ he => exact he.inv (h.advance hr) hr

/-- Settles O37, by cases on what the step can do (R20, R31, R161). -/
theorem everyStepKeepsTheInvariant : Obligations.EveryStepKeepsTheInvariant := by
  intro s t h hst
  exact (stepEffect_of_step hst).inv h

/-- Settles O38: reset is running with empty memory. -/
theorem resetHasTheInvariant : Obligations.ResetHasTheInvariant :=
  State.inv_of_not_faulted Memory.wf_nil (by simp) rfl

/-- Settles O39, by whether the program fits (R35) or not (R165). -/
theorem everyLaunchHasTheInvariant : Obligations.EveryLaunchHasTheInvariant := by
  intro s program
  rcases s.launch_cases program with ⟨hfits, h⟩ | ⟨_, h⟩
  · rw [h]
    exact State.inv_of_not_faulted (Memory.wf_writeWords Memory.wf_nil (by omega)) nofun rfl
  · rw [h]
    exact State.inv_raise Memory.wf_nil ⟨rfl, rfl⟩

/-! ### Registers -/

/-- Settles O36 (R22). -/
theorem everyRegisterReadsAsLastWritten : Obligations.EveryRegisterReadsAsLastWritten := by
  intro s r v
  exact ⟨State.reg_setReg_same s r v, fun q hq => State.reg_setReg_other s v hq⟩

/-- An instruction that changes a register has an opcode 0 to 7 and names that register in its `rd` field (R23). -/
theorem ExecEffect.of_reg_ne {o d a b : Nibble} {s t : State} (he : ExecEffect o d a b s t) {r : Reg}
    (hr : t.reg r ≠ s.reg r) : o.toNat ≤ 7 ∧ r = regOf d := by
  have written {u : State} {v : Word} (hu : u.reg r = s.reg r) (h : (u.setReg (regOf d) v).reg r ≠ s.reg r) :
      r = regOf d := by
    by_contra hne
    exact h ((State.reg_setReg_other u v hne).trans hu)
  cases he with
  | alu v ho => exact ⟨by omega, written rfl hr⟩
  | draw v ho => exact ⟨by omega, written rfl hr⟩
  | load ho => exact ⟨by omega, written rfl hr⟩
  | loadFault | store | storeFault | taken | notTaken | halt | illegal => exact absurd rfl hr

/-- Settles O32: outside an executed instruction no register changes at all. -/
theorem onlyAluAndLdrChangeTheirRegister : Obligations.OnlyAluAndLdrChangeTheirRegister := by
  intro s
  obtain ⟨t, hst, he⟩ := step_effect s
  refine ⟨t, hst, fun r hr => ?_⟩
  cases he with
  | ended | fetchFault => exact absurd rfl hr
  | executed hrun hf he =>
    obtain ⟨ho, hrd⟩ := he.of_reg_ne hr
    exact ⟨hrun, hf, ho, hrd⟩

/-! ### The program counter -/

/-- Only a taken branch moves `pc` from where fetch left it (R86). -/
theorem ExecEffect.pc_eq {o d a b : Nibble} {s t : State} (he : ExecEffect o d a b s t) :
    t.pc = if o = 9 ∧ s.reg (regOf a) = s.reg (regOf b) then s.reg (regOf d) else s.pc := by
  have other (ho : o.toNat ≠ 9) :
      s.pc = if o = 9 ∧ s.reg (regOf a) = s.reg (regOf b) then s.reg (regOf d) else s.pc :=
    (if_neg fun ⟨ho9, _⟩ => ho (by rw [ho9]; rfl)).symm
  cases he with
  | taken ho h => exact (if_pos ⟨BitVec.eq_of_toNat_eq ho, h⟩).symm
  | notTaken _ h => exact (if_neg fun ⟨_, heq⟩ => h heq).symm
  | alu | draw | load | loadFault | store | storeFault | halt | illegal => exact other (by omega)

/-- Settles O35 (R29). -/
theorem fetchNeverWrapsThePc : Obligations.FetchNeverWrapsThePc := by
  intro s hf
  have hpc := State.advance_pc_toNat hf
  exact ⟨s.nextWord, s.advance, by rw [State.fetch_eq, if_pos hf], hpc, by omega⟩

/-- Settles O34: a failed fetch leaves an even `pc`, fetch adds 2 to it, and only a taken branch replaces it. -/
theorem pcStaysEvenButForOddTargets : Obligations.PcStaysEvenButForOddTargets := by
  intro s hrun heven
  obtain ⟨t, hst, he⟩ := step_effect s
  refine ⟨t, hst, ?_⟩
  cases he with
  | ended h => exact absurd hrun h
  | fetchFault _ hf => simp [hf, heven]
  | executed _ hf he =>
    have hpc := State.advance_pc_toNat hf
    by_cases hbranch : opcodeField s.nextWord = 9 ∧
        s.reg (regOf (rs1Field s.nextWord)) = s.reg (regOf (rs2Field s.nextWord))
    · have htarget : t.pc = s.reg (regOf (rdField s.nextWord)) := he.pc_eq.trans (if_pos hbranch)
      simp [htarget, hf, hbranch]
    · have hnext : t.pc = s.advance.pc := he.pc_eq.trans (if_neg hbranch)
      have hnotOdd : ¬ t.pc.toNat % 2 = 1 := by rw [hnext]; omega
      exact iff_of_false hnotOdd fun ⟨_, ho, heq, _⟩ => hbranch ⟨ho, heq⟩

/-! ### Ended states -/

theorem run_ended {s : State} (h : s.ended) (fuel : Nat) : run fuel s = .next s := by
  induction fuel with
  | zero => rfl
  | succ fuel ih => rw [run_succ fuel (step_ended h), ih]

/-- Settles O44 (R31, R195). -/
theorem endedStatesNeverMove : Obligations.EndedStatesNeverMove := by
  intro s h
  exact ⟨step_ended h, run_ended h⟩

/-! ### Launches -/

/-- The two bytes of an instruction word, as the halves of what is read there (R42). -/
theorem Memory.bytes_of_read16 {m : Memory} {a : Nat} {w : HalfWord} (h : m.read16 a = w) :
    m.get a = w.extractLsb 15 8 ∧ m.get (a + 1) = w.extractLsb 7 0 := by
  subst h
  exact ⟨(BitVec.extractLsb'_append_eq_left).symm, (BitVec.extractLsb'_append_eq_right).symm⟩

/-- Registers after a launch, whether the program fits or not (R190). -/
theorem State.launch_reg (s : State) (p : List HalfWord) (r : Reg) : (s.launch p).reg r = 0 := by
  rcases s.launch_cases p with ⟨_, h⟩ | ⟨_, h⟩ <;> rw [h] <;> exact State.zeroed_reg s r

/-- `pc` after a launch is the entry point, whether the program fits or not (R192). -/
theorem State.launch_pc (s : State) (p : List HalfWord) : (s.launch p).pc = 0 := by
  rcases s.launch_cases p with ⟨_, h⟩ | ⟨_, h⟩ <;> rw [h] <;> rfl

/-- Settles O42: a program that fits stands in zeroed memory (R35); one that does not leaves the fault alone (R165). -/
theorem launchSetsTheWholeState : Obligations.LaunchSetsTheWholeState := by
  intro s program
  refine ⟨s.launch_reg program, s.launch_pc program, fun hfits => ?_, fun hlong => ?_⟩
  · rw [State.launch_fits (by omega)]
    refine ⟨rfl, rfl, fun i hi => ?_, fun b hb => ?_⟩
    · have hword := Memory.read16_writeWords program [] 0 i hi
      rw [Nat.zero_add] at hword
      exact Memory.bytes_of_read16 hword
    · exact Memory.get_writeWords_other program [] 0 (.inr (by omega))
  · rw [State.launch_too_long (by omega)]
    exact ⟨rfl, rfl, fun _ => rfl, step_ended nofun⟩

/-- Settles O43: no words fit, and leave memory as zeroed. -/
theorem resetIsTheEmptyLaunch : Obligations.ResetIsTheEmptyLaunch := by
  refine ⟨fun s => ?_, State.reset_reg, rfl, Memory.get_nil, rfl, rfl⟩
  rw [State.launch_fits (Nat.zero_le _)]
  rfl

end Sys2Proof.Machine

/-! PROOF. Memory (20_memory.md): the one byte array that stores, loads and fetches share, and the only bytes a step changes.
A store in bounds is `Memory.write32`, a load `Memory.read32` and a fetch `Memory.read16`, so that what one of them sees of
another is a law of these three (Laws/Memory). -/

namespace Sys2Proof.Machine

/-! ### The words fetch reads at a given `pc` -/

theorem State.nextWord_setPc (s : State) (p : Word) : (s.setPc p).nextWord = s.mem.read16 p.toNat := rfl

/-- The word that follows a word of memory: `pc` does not wrap between them (R29). -/
theorem State.nextWord_setPc_add_two (s : State) {p : Word} (h : p.toNat + 1 < Config.memSize) :
    (s.setPc (p + 2)).nextWord = s.mem.read16 (p.toNat + 2) := by
  have hpc : (p + 2).toNat = p.toNat + 2 := State.advance_pc_toNat (s := s.setPc p) h
  rw [State.nextWord_setPc, hpc]

/-- The step of a core about to run `w` (R90). -/
theorem State.AboutToRun.step_eq {s : State} {w : HalfWord} (h : s.AboutToRun w) :
    step s = exec (decodeWord w) s.advance := by
  rw [step_fetched h.running h.inMemory, h.word]

/-! ### Stores and loads in bounds -/

theorem exec_str_inBounds {rd : Reg} {s : State} (rs1 : Reg) (n : Nibble) (hb : (s.reg rd).toNat + 3 < Config.memSize) :
    exec (.str rd rs1 n) s = .next (s.setMem (s.mem.write32 (s.reg rd).toNat (s.reg rs1))) := by
  rw [exec_str, if_pos hb]

theorem exec_ldr_inBounds {rs1 : Reg} {s : State} (rd : Reg) (n : Nibble) (hb : (s.reg rs1).toNat + 3 < Config.memSize) :
    exec (.ldr rd rs1 n) s = .next (s.setReg rd (s.mem.read32 (s.reg rs1).toNat)) := by
  rw [exec_ldr, if_pos hb]

theorem decodeWord_encode_str (rd rs1 : Reg) (n : Nibble) : decodeWord (encode (.str rd rs1 n)) = .str rd rs1 n := by
  simp only [encode, decodeWord_pack, Instr.opcode, Instr.operandFields]
  simp [instrOfFields]

/-- The step of a core about to run a store in bounds: `pc` moves past it and the four bytes are stored (R121). -/
theorem State.AboutToRun.step_str {s : State} {rd rs1 : Reg} {n : Nibble} (h : s.AboutToRun (encode (.str rd rs1 n)))
    (hb : (s.reg rd).toNat + 3 < Config.memSize) :
    step s = .next (s.advance.setMem (s.mem.write32 (s.reg rd).toNat (s.reg rs1))) := by
  rw [h.step_eq, decodeWord_encode_str]
  exact exec_str_inBounds rs1 n hb

/-! ### The obligations on loads, stores and fetches -/

/-- Settles O21: after the store `pc` is the address stored to, and the word there is the high half of the value (R199). -/
theorem storeIsSeenByTheVeryNextFetch : Obligations.StoreIsSeenByTheVeryNextFetch := by
  intro s rd rs1 n h hb haddr
  have hpc : s.advance.pc.toNat = (s.reg rd).toNat := (State.advance_pc_toNat h.inMemory).trans haddr.symm
  have hnext : (s.advance.setMem (s.mem.write32 (s.reg rd).toNat (s.reg rs1))).AboutToRun
      ((s.reg rs1).extractLsb 31 16) :=
    { running := h.running
      inMemory := by rw [State.canFetch, State.setMem_pc, hpc]; omega
      word := by
        rw [← State.nextWord_eq, State.setMem_pc, hpc]
        exact Memory.read16_write32_high s.mem (s.reg rd).toNat (s.reg rs1) }
  exact ⟨_, h.step_str hb, hnext, hnext.step_eq⟩

/-- Settles O22: the two halves of a stored word, and of a loaded one (R45). -/
theorem mixedWidthsSeeTheSameBytes : Obligations.MixedWidthsSeeTheSameBytes := by
  intro rd rs1 n s
  refine ⟨fun hb => ⟨_, exec_str_inBounds rs1 n hb, ?high, ?low⟩, fun hb => ⟨_, exec_ldr_inBounds rd n hb, ?load⟩⟩
  case high => exact Memory.read16_write32_high s.mem (s.reg rd).toNat (s.reg rs1)
  case low =>
    exact (State.nextWord_setPc_add_two _ (by omega)).trans
      (Memory.read16_write32_low s.mem (s.reg rd).toNat (s.reg rs1))
  case load =>
    have hlow : (s.setPc (s.reg rs1 + 2)).nextWord = s.mem.read16 ((s.reg rs1).toNat + 2) :=
      s.nextWord_setPc_add_two (by omega)
    calc (s.setReg rd (s.mem.read32 (s.reg rs1).toNat)).reg rd
      _ = s.mem.read16 (s.reg rs1).toNat ++ s.mem.read16 ((s.reg rs1).toNat + 2) := State.reg_setReg_same s rd _
      _ = (s.setPc (s.reg rs1)).nextWord ++ (s.setPc (s.reg rs1 + 2)).nextWord := by rw [State.nextWord_setPc, hlow]

/-! ### Which bytes a step changes -/

/-- An instruction that changes a byte is a store in bounds, and the byte is one of its four (R43, R48). -/
theorem ExecEffect.of_get_ne {o d a b : Nibble} {s t : State} (he : ExecEffect o d a b s t) {c : Nat}
    (hc : t.mem.get c ≠ s.mem.get c) :
    o = 8 ∧ (s.reg (regOf d)).toNat ≤ c ∧ c < (s.reg (regOf d)).toNat + 4 ∧
      (s.reg (regOf d)).toNat + 3 < Config.memSize := by
  cases he with
  | store ho hb =>
    have hstored : ¬ (c < (s.reg (regOf d)).toNat ∨ (s.reg (regOf d)).toNat + 4 ≤ c) :=
      fun hout => hc (Memory.get_write32_other s.mem _ hout)
    exact ⟨BitVec.eq_of_toNat_eq ho, by omega, by omega, hb⟩
  | alu | draw | load | loadFault | storeFault | taken | notTaken | halt | illegal => exact absurd rfl hc

/-- Settles O33: outside an executed instruction no byte changes at all (R41). -/
theorem onlyStrChangesItsFourBytes : Obligations.OnlyStrChangesItsFourBytes := by
  intro s
  obtain ⟨t, hst, he⟩ := step_effect s
  refine ⟨t, hst, fun a ha => ?_⟩
  cases he with
  | ended | fetchFault => exact absurd rfl ha
  | executed hrun hf he => exact ⟨hrun, hf, he.of_get_ne ha⟩

end Sys2Proof.Machine

/-! PROOF. Encoding (30_encoding.md): a word is its four fields, `instrOfFields` and the encoder are inverse to each other, and
what words of note do. A claim about all words is brought to `instrOfFields` by `decodeWord_pack` and `pack_fields`
(Laws/Decode), a claim about an effect to the equations `exec_*` (Laws/Exec). -/

namespace Sys2Proof

/-! ### Decoding what was encoded (R61, R63) -/

/-- Opcodes 12 to 15 are one row (R69). -/
theorem instrOfFields_of_twelve_le {o : Nibble} (ho : 12 ≤ o.toNat) (d s t : Nibble) :
    instrOfFields o d s t = .illegalOpcodes12to15 o d s t := by
  unfold instrOfFields
  split
  case h_13 => rfl
  all_goals omega

/-- A well-formed instruction is the one its four fields are. -/
theorem instrOfFields_fields {i : Instr} (h : i.wellFormed = true) :
    instrOfFields i.opcode i.operandFields.1 i.operandFields.2.1 i.operandFields.2.2 = i := by
  cases i with
  | illegalOpcodes12to15 o d s t => exact instrOfFields_of_twelve_le (of_decide_eq_true h) d s t
  | add | sub | and | or | xor | sll | srl | ldr | str | beq | halt | illegalOpcode11 =>
    simp [instrOfFields, Instr.opcode, Instr.operandFields]

theorem decodeWord_encode {i : Instr} (h : i.wellFormed = true) : decodeWord (encode i) = i := by
  rw [encode, decodeWord_pack, instrOfFields_fields h]

/-- Settles O3: the two bytes of a word are the word again (R62), and a word decodes by its fields. -/
theorem decodeOfEncodeIsIdentity : Obligations.DecodeOfEncodeIsIdentity := by
  intro i h
  exact ⟨decodeWord_encode h, fun rest => by rw [decodeBytes_bytesOfWord, decodeWord_encode h]⟩

/-! ### Encoding what was decoded (R61, R69) -/

theorem encode_instrOfFields (o d s t : Nibble) : encode (instrOfFields o d s t) = pack o d s t := by
  simp only [encode, opcode_instrOfFields, operandFields_instrOfFields]

theorem encode_decodeWord (w : HalfWord) : encode (decodeWord w) = w := by
  rw [decodeWord, encode_instrOfFields, pack_fields]

theorem wellFormed_decodeWord (w : HalfWord) : (decodeWord w).wellFormed = true := wellFormed_instrOfFields ..

/-- Settles O4: an instruction with the word `w` is what `w` decodes to, by `decodeWord_encode`. -/
theorem encodeOfDecodeIsIdentity : Obligations.EncodeOfDecodeIsIdentity := by
  intro w
  refine ⟨wellFormed_decodeWord w, encode_decodeWord w, fun i hi hw => ?_⟩
  rw [← hw, decodeWord_encode hi]

/-! ### Words field by field (R60, R63) -/

theorem pack_and_pack (o d s t o' d' s' t' : Nibble) :
    pack o d s t &&& pack o' d' s' t' = pack (o &&& o') (d &&& d') (s &&& s') (t &&& t') :=
  BitVec.and_append.trans (by rw [BitVec.and_append, BitVec.and_append]; rfl)

theorem pack_or_pack (o d s t o' d' s' t' : Nibble) :
    pack o d s t ||| pack o' d' s' t' = pack (o ||| o') (d ||| d') (s ||| s') (t ||| t') :=
  BitVec.or_append.trans (by rw [BitVec.or_append, BitVec.or_append]; rfl)

/-- A field shifted to its place is the packing of it alone. -/
theorem shifted_eq_pack : ∀ f : Nibble,
    f.setWidth 16 <<< 12 = pack f 0 0 0 ∧ f.setWidth 16 <<< 8 = pack 0 f 0 0 ∧
      f.setWidth 16 <<< 4 = pack 0 0 f 0 ∧ f.setWidth 16 = pack 0 0 0 f := by
  decide

/-- R63's formula for a packed word. -/
theorem pack_eq_shifts (o d s t : Nibble) :
    pack o d s t =
      (o.setWidth 16 <<< 12) ||| (d.setWidth 16 <<< 8) ||| (s.setWidth 16 <<< 4) ||| t.setWidth 16 := by
  obtain ⟨ho, -⟩ := shifted_eq_pack o
  obtain ⟨-, hd, -⟩ := shifted_eq_pack d
  obtain ⟨-, -, hs, -⟩ := shifted_eq_pack s
  obtain ⟨-, -, -, ht⟩ := shifted_eq_pack t
  rw [ho, hd, hs, ht]
  simp [pack_or_pack]

/-- Settles O2: R63's formula, and fields and packing are inverse (Laws/Decode). -/
theorem fieldsAndWordsAreOneToOne : Obligations.FieldsAndWordsAreOneToOne :=
  ⟨fun o d s t => ⟨pack_eq_shifts o d s t, opcodeField_pack o d s t, rdField_pack o d s t, rs1Field_pack o d s t,
    rs2Field_pack o d s t⟩, pack_fields⟩

/-! ### The opcode table (R67, R69) -/

/-- Every mask of the table selects opcode bits alone. -/
theorem mask_of_mem_opcodeTable : ∀ row ∈ opcodeTable, row.mask = pack (opcodeField row.mask) 0 0 0 := by
  decide

/-- A row of the table holds a word by its opcode alone. -/
theorem TableRow.holds_eq_of_mem {row : TableRow} (h : row ∈ opcodeTable) (w : HalfWord) :
    row.holds w = row.holds (pack (opcodeField w) 0 0 0) := by
  have hand (d s t : Nibble) : pack (opcodeField w) d s t &&& row.mask =
      pack (opcodeField w &&& opcodeField row.mask) 0 0 0 := by
    rw [mask_of_mem_opcodeTable row h, pack_and_pack, opcodeField_pack]
    simp
  unfold TableRow.holds
  rw [hand, ← hand (rdField w) (rs1Field w) (rs2Field w), pack_fields]

/-- The mnemonic depends on the opcode alone (R67). -/
theorem mnemonic_instrOfFields (o d s t : Nibble) :
    (instrOfFields o d s t).mnemonic = (instrOfFields o 0 0 0).mnemonic := by
  unfold instrOfFields
  split <;> rfl

/-- Each opcode is in one row, the one with its mnemonic (R67, R69). -/
theorem rows_holding_opcode : ∀ o : Nibble,
    (opcodeTable.filter fun row => row.holds (pack o 0 0 0)).map TableRow.mnemonic =
      [(instrOfFields o 0 0 0).mnemonic] := by
  decide

/-- Settles O5: row and mnemonic depend on the opcode alone, which leaves one word for each of the 16 opcodes. -/
theorem everyWordIsInExactlyOneTableRow : Obligations.EveryWordIsInExactlyOneTableRow := by
  intro w
  rw [List.filter_congr fun row hrow => TableRow.holds_eq_of_mem hrow w, rows_holding_opcode, decodeWord,
    mnemonic_instrOfFields _ (rdField w)]

/-! ### Ignored fields (R68) -/

theorem canonical_ldr_word (d a t : Nibble) : (decodeWord (pack 7 d a t)).canonical = instrOfFields 7 d a 0 := by
  rw [decodeWord_pack]
  rfl

theorem canonical_str_word (d a t : Nibble) : (decodeWord (pack 8 d a t)).canonical = instrOfFields 8 d a 0 := by
  rw [decodeWord_pack]
  rfl

/-- HALT and the illegal opcodes ignore all three fields (R68). -/
theorem canonical_word_of_ten_le {o : Nibble} (ho : 10 ≤ o.toNat) (d a t : Nibble) :
    (decodeWord (pack o d a t)).canonical = instrOfFields o 0 0 0 := by
  rw [decodeWord_pack]
  rcases Nat.lt_or_ge o.toNat 12 with hlt | hge
  · have hor : o = 10 ∨ o = 11 :=
      (show o.toNat = 10 ∨ o.toNat = 11 by omega).imp BitVec.eq_of_toNat_eq BitVec.eq_of_toNat_eq
    rcases hor with rfl | rfl <;> rfl
  · rw [instrOfFields_of_twelve_le hge, instrOfFields_of_twelve_le hge, Instr.canonical]

end Sys2Proof

namespace Sys2Proof.Machine

/-- The effect of an instruction does not depend on its ignored fields (R68). -/
theorem exec_canonical (i : Instr) (s : State) : exec i.canonical s = exec i s := by
  cases i <;> rfl

theorem exec_eq_of_canonical_eq {i j : Instr} (h : i.canonical = j.canonical) (s : State) : exec i s = exec j s := by
  rw [← exec_canonical i, h, exec_canonical]

/-- Settles O6: words that differ in ignored fields have one canonical form, and it has their effect. -/
theorem ignoredFieldsHaveNoEffect : Obligations.IgnoredFieldsHaveNoEffect := by
  refine ⟨fun d a t t' s => ⟨?ldr, ?str, ?ldrLegal, ?strLegal⟩, fun o d a t d' a' t' s ho => ⟨?rest, ?haltLegal⟩,
    fun d a t => ⟨?ldrForm, ?strForm⟩, fun o d a t ho => ?restForm⟩
  case ldr => exact exec_eq_of_canonical_eq (by rw [canonical_ldr_word, canonical_ldr_word]) s
  case str => exact exec_eq_of_canonical_eq (by rw [canonical_str_word, canonical_str_word]) s
  case rest =>
    exact exec_eq_of_canonical_eq (by rw [canonical_word_of_ten_le ho, canonical_word_of_ten_le ho]) s
  case ldrLegal | strLegal =>
    rw [decodeWord_pack]
    rfl
  case haltLegal =>
    rintro rfl
    rw [decodeWord_pack]
    rfl
  case ldrForm => rw [canonical_ldr_word, encode_instrOfFields]
  case strForm => rw [canonical_str_word, encode_instrOfFields]
  case restForm => rw [canonical_word_of_ten_le ho, encode_instrOfFields]

/-! ### No constants but loaded ones (R65) -/

/-- Of all instructions only a load can bring in a value other than 0: an ALU operation maps 0 and 0 to 0, and a shift by 0 is
in range. -/
theorem ExecEffect.reg_eq_zero {o d a b : Nibble} {s t : State} (he : ExecEffect o d a b s t)
    (h : ∀ r, s.reg r = 0) (ho : o ≠ 7) (r : Reg) : t.reg r = 0 := by
  cases he with
  | alu v _ hv => rw [State.reg_setReg, hv h, h, ite_self]
  | draw v _ hn => simp [h] at hn
  | load ho7 | loadFault ho7 => exact absurd (BitVec.eq_of_toNat_eq ho7) ho
  | store | storeFault | taken | notTaken | halt | illegal => exact h r

/-- Settles O41: outside an executed instruction no register changes at all. -/
theorem zeroRegistersStayZeroWithoutLoads : Obligations.ZeroRegistersStayZeroWithoutLoads := by
  intro s h hload
  obtain ⟨t, hst, he⟩ := step_effect s
  refine ⟨t, hst, fun r => ?_⟩
  cases he with
  | ended | fetchFault => exact h r
  | executed _ hf he => exact he.reg_eq_zero h (hload hf) r

/-! ### Words of note (R67, R70) -/

/-- Settles O1, by evaluating the decoder. -/
theorem writtenOutWordsDecode : Obligations.WrittenOutWordsDecode := by
  unfold Obligations.WrittenOutWordsDecode
  decide

/-- Beyond a program that fits every byte is 0, so that every word there is `0x0000` (R35). -/
theorem State.nextWord_beyond_launch (s : State) {program : List HalfWord} {p : Word}
    (hfits : program.length ≤ Config.memSize / 2) (hp : 2 * program.length ≤ p.toNat) :
    ((s.launch program).setPc p).nextWord = 0x0000 := by
  obtain ⟨-, -, hlaunch, -⟩ := launchSetsTheWholeState s program
  obtain ⟨-, -, -, hzero⟩ := hlaunch hfits
  rw [State.nextWord, State.setPc_mem, State.setPc_pc, hzero _ hp, hzero _ (by omega)]
  rfl

/-- Settles O51: the sum of R0 with itself is R0 only where R0 is 0. -/
theorem zeroWordDoublesRegisterZero : Obligations.ZeroWordDoublesRegisterZero := by
  refine ⟨rfl, fun s => ?_, fun s program p hfits hp => s.nextWord_beyond_launch hfits hp⟩
  exact ⟨_, _, exec_add 0 0 0 s, s.setReg_writesRegister 0 _, rfl, BitVec.add_right_eq_self⟩

/-! ### The assembler (R72, R73) -/

/-- A register rewritten with its own value changes no register. -/
theorem WritesRegister.sameRegisters {rd : Reg} {s t : State} (h : WritesRegister rd (s.reg rd) s t) :
    SameRegisters s t := by
  intro r
  by_cases hr : r = rd
  · rw [hr, h.result]
  · exact h.registers r hr

theorem exec_mov (rd rs : Reg) (s : State) : exec (.mov rd rs) s = .next (s.setReg rd (s.reg rs)) := by
  rw [Instr.mov, exec_or, BitVec.or_self]

theorem exec_clr (rd : Reg) (s : State) : exec (.clr rd) s = .next (s.setReg rd 0) := by
  rw [Instr.clr, exec_xor, BitVec.xor_self]
  rfl

theorem exec_jmp (rt : Reg) (s : State) : exec (.jmp rt) s = .next (s.setPc (s.reg rt)) := by
  rw [Instr.jmp, exec_beq, if_pos rfl]

/-- Settles O52: NOP is `MOV R0, R0`. -/
theorem pseudoInstructionsDoWhatTheySay : Obligations.PseudoInstructionsDoWhatTheySay := by
  refine ⟨rfl, fun s => ?nop, fun rd rs => ⟨rfl, fun s => ?mov⟩, fun rd => ⟨rfl, fun s => ?clr⟩,
    fun rt => ⟨rfl, fun s => ?jmp⟩⟩
  case nop =>
    have h : WritesRegister 0 (s.reg 0) s (s.setReg 0 (s.reg 0)) := s.setReg_writesRegister 0 _
    exact ⟨_, exec_mov 0 0 s, h.sameRegisters, h.pc, h.memory, h.control⟩
  case mov => exact ⟨_, exec_mov rd rs s, s.setReg_writesRegister rd _⟩
  case clr => exact ⟨_, exec_clr rd s, s.setReg_writesRegister rd 0⟩
  case jmp => exact ⟨_, exec_jmp rt s, rfl, fun _ => rfl, fun _ => rfl, rfl, rfl⟩

/-- Settles O53: every form but a data word is the word of a well-formed instruction, which `decodeWord_encode` reads back. -/
theorem assemblerFormsAreTheirWords : Obligations.AssemblerFormsAreTheirWords := by
  refine ⟨fun _ _ _ _ => rfl, fun rd rs1 rs2 => ?general, fun rd rs1 => ⟨rfl, decodeWord_encode rfl⟩,
    fun rd rs1 => ⟨rfl, decodeWord_encode rfl⟩, rfl, decodeWord_encode rfl, fun _ => rfl⟩
  case general =>
    exact ⟨decodeWord_encode (i := .add rd rs1 rs2) rfl, decodeWord_encode (i := .sub rd rs1 rs2) rfl,
      decodeWord_encode (i := .and rd rs1 rs2) rfl, decodeWord_encode (i := .or rd rs1 rs2) rfl,
      decodeWord_encode (i := .xor rd rs1 rs2) rfl, decodeWord_encode (i := .sll rd rs1 rs2) rfl,
      decodeWord_encode (i := .srl rd rs1 rs2) rfl, decodeWord_encode (i := .ldr rd rs1 (regField rs2)) rfl,
      decodeWord_encode (i := .str rd rs1 (regField rs2)) rfl, decodeWord_encode (i := .beq rd rs1 rs2) rfl,
      decodeWord_encode (i := .halt (regField rd) (regField rs1) (regField rs2)) rfl⟩

end Sys2Proof.Machine

/-! PROOF. The cycle (40_cycle.md): what a step of the running core is, as the decoder's instruction executed and as the `pc` it
leaves. A step that fetches is a step of a core about to run the word at `pc` (`State.AboutToRun.step_eq`). -/

namespace Sys2Proof.Machine

/-! ### Where a step leaves `pc` -/

/-- Of all steps of the running core, one whose fetch fails leaves `pc` as it is and a taken branch replaces it (R86). -/
theorem StepEffect.pc_eq {s t : State} (he : StepEffect s t) (hrun : s.status = .running) :
    t.pc = if ¬ s.canFetch then s.pc
      else if opcodeField s.nextWord = 9 ∧
          s.reg (regOf (rs1Field s.nextWord)) = s.reg (regOf (rs2Field s.nextWord)) then
        s.reg (regOf (rdField s.nextWord))
      else s.pc + 2 := by
  cases he with
  | ended h => exact absurd hrun h
  | fetchFault _ hf => rw [if_pos hf, State.raise_pc]
  | executed _ hf he => exact he.pc_eq.trans (if_neg (not_not_intro hf)).symm

/-- Settles O31 (R86). -/
theorem pcAfterEveryStep : Obligations.PcAfterEveryStep := by
  intro s hrun
  obtain ⟨t, hst, he⟩ := step_effect s
  exact ⟨t, hst, he.pc_eq hrun⟩

/-! ### The instruction a step runs -/

/-- Settles O7: the two bytes decoded are those of the word that fetch reads (R81, R82). -/
theorem stepRunsTheDecodedInstruction : Obligations.StepRunsTheDecodedInstruction := by
  intro s i hrun hf hdecode
  have hi : decodeWord s.nextWord = i := congrArg Prod.fst (Except.ok.inj hdecode)
  rw [step_fetched hrun hf, hi]
  rfl

/-- The decoder reads a table word from its two bytes as the word it is (R62). -/
theorem decodeTableWord_eq (nbits w : Nat) :
    decodeTableWord nbits w = some (decodeWord (BitVec.ofNat 16 (w % 2 ^ nbits))) := by
  have hbytes := decodeBytes_bytesOfWord (BitVec.ofNat 16 (w % 2 ^ nbits)) []
  rw [List.append_nil] at hbytes
  rw [decodeTableWord, hbytes]

theorem State.placeWord_pc (s : State) (w : HalfWord) :
    (s.placeWord w).pc = if s.canFetch then s.pc else 0 := by
  simp only [State.placeWord, inBounds, decide_eq_true_eq]
  rfl

/-- Both the `pc` kept and the entry point 0 can be fetched from. -/
theorem State.placeWord_canFetch (s : State) (w : HalfWord) : (s.placeWord w).canFetch := by
  unfold State.canFetch
  rw [State.placeWord_pc]
  split
  · assumption
  · decide

/-- The core of a placed word is about to run it: the word written at `pc` is the word fetch reads there (log 8). -/
theorem State.placeWord_aboutToRun (s : State) (w : HalfWord) : (s.placeWord w).AboutToRun w where
  running := rfl
  inMemory := s.placeWord_canFetch w
  word := Memory.read16_write16 s.mem (s.placeWord w).pc.toNat w

/-- Settles O8: the decoder and the step read the same word. -/
theorem placedTableWordRunsNext : Obligations.PlacedTableWordRunsNext := by
  intro s w _
  exact ⟨_, decodeTableWord_eq 16 w, (s.placeWord_aboutToRun _).step_eq⟩

end Sys2Proof.Machine

/-! PROOF. The ALU (41_alu.md). The result of each instruction is read off its equation (Laws/Exec) and its frame is that of the one
register write (`State.setReg_writesRegister`); the two shifts share `shiftWriteBack`, whose two cases are said once below. -/

namespace Sys2Proof.Machine

/-! ### Arithmetic and bitwise results (R101 to R105) -/

/-- Settles O10 (R101). -/
theorem addWritesSumModulo : Obligations.AddWritesSumModulo := by
  intro rd rs1 rs2 s
  exact ⟨decodeWord_encode (i := .add rd rs1 rs2) rfl, _, _, exec_add rd rs1 rs2 s, BitVec.toNat_add ..,
    s.setReg_writesRegister rd _⟩

/-- Settles O11: `2^32` is added before the natural subtraction, which cuts nothing off (R102). -/
theorem subWritesDifferenceModulo : Obligations.SubWritesDifferenceModulo := by
  intro rd rs1 rs2 s
  have hdiff : (s.reg rs1 - s.reg rs2).toNat = ((s.reg rs1).toNat + 2 ^ 32 - (s.reg rs2).toNat) % 2 ^ 32 := by
    rw [BitVec.toNat_sub', Nat.add_sub_assoc (s.reg rs2).isLt.le (s.reg rs1).toNat]
  exact ⟨decodeWord_encode (i := .sub rd rs1 rs2) rfl, _, _, exec_sub rd rs1 rs2 s, hdiff, s.setReg_writesRegister rd _⟩

/-- Settles O12 (R103). -/
theorem andWritesBitwiseAnd : Obligations.AndWritesBitwiseAnd := by
  intro rd rs1 rs2 s
  exact ⟨decodeWord_encode (i := .and rd rs1 rs2) rfl, _, _, exec_and rd rs1 rs2 s, fun _ => BitVec.getLsbD_and,
    s.setReg_writesRegister rd _⟩

/-- Settles O13 (R104). -/
theorem orWritesBitwiseOr : Obligations.OrWritesBitwiseOr := by
  intro rd rs1 rs2 s
  exact ⟨decodeWord_encode (i := .or rd rs1 rs2) rfl, _, _, exec_or rd rs1 rs2 s, fun _ => BitVec.getLsbD_or,
    s.setReg_writesRegister rd _⟩

/-- Settles O14 (R105). -/
theorem xorWritesBitwiseXor : Obligations.XorWritesBitwiseXor := by
  intro rd rs1 rs2 s
  exact ⟨decodeWord_encode (i := .xor rd rs1 rs2) rfl, _, _, exec_xor rd rs1 rs2 s, fun _ => BitVec.getLsbD_xor,
    s.setReg_writesRegister rd _⟩

/-! ### The two cases of a shift (R106, R107, R108) -/

theorem shiftWriteBack_inRange {s : State} {rs2 : Reg} (h : (s.reg rs2).toNat < 32) (op : ShiftOp) (rd rs1 : Reg) :
    shiftWriteBack op rd rs1 rs2 s = .next (s.setReg rd (shiftInRange op (s.reg rs1) (s.reg rs2))) := by
  rw [shiftWriteBack_eq, if_pos h]

theorem shiftWriteBack_oversized {s : State} {rs2 : Reg} (h : 32 ≤ (s.reg rs2).toNat) (op : ShiftOp) (rd rs1 : Reg) :
    shiftWriteBack op rd rs1 rs2 s =
      .next (s.nextDraw.setReg rd (Config.shiftOversize op (s.reg rs1) (s.reg rs2) s.draws)) := by
  rw [shiftWriteBack_eq, if_neg (Nat.not_lt_of_le h)]

/-- A shift completes and writes `rd` alone for every amount; in range the value is the shifted one (R108). -/
theorem shiftWriteBack_writesRegister (op : ShiftOp) (rd rs1 rs2 : Reg) (s : State) :
    ∃ (v : Word) (t : State), shiftWriteBack op rd rs1 rs2 s = .next t ∧ WritesRegister rd v s t ∧
      ((s.reg rs2).toNat < 32 → v = shiftInRange op (s.reg rs1) (s.reg rs2)) := by
  rcases Nat.lt_or_ge (s.reg rs2).toNat 32 with hin | hover
  · exact ⟨_, _, shiftWriteBack_inRange hin op rd rs1, s.setReg_writesRegister rd _, fun _ => rfl⟩
  · exact ⟨_, _, shiftWriteBack_oversized hover op rd rs1, s.nextDraw_setReg_writesRegister rd _,
      fun hin => absurd hin (Nat.not_lt_of_le hover)⟩

/-- R106's value. -/
theorem shiftInRange_sll_toNat (value amount : Word) :
    (shiftInRange .sll value amount).toNat = value.toNat * 2 ^ amount.toNat % 2 ^ 32 := by
  rw [shiftInRange, BitVec.toNat_shiftLeft, Nat.shiftLeft_eq]

/-- R107's value. -/
theorem shiftInRange_srl_toNat (value amount : Word) :
    (shiftInRange .srl value amount).toNat = value.toNat / 2 ^ amount.toNat := by
  rw [shiftInRange, BitVec.toNat_ushiftRight, Nat.shiftRight_eq_div_pow]

/-- Settles O15 (R106, R108). -/
theorem sllWritesLeftShift : Obligations.SllWritesLeftShift := by
  intro rd rs1 rs2 s
  obtain ⟨v, t, hexec, hwrites, hvalue⟩ := shiftWriteBack_writesRegister .sll rd rs1 rs2 s
  refine ⟨decodeWord_encode (i := .sll rd rs1 rs2) rfl, v, t, hexec, hwrites, fun hin => ?_⟩
  rw [hvalue hin, shiftInRange_sll_toNat]

/-- Settles O16 (R107, R108). -/
theorem srlWritesRightShift : Obligations.SrlWritesRightShift := by
  intro rd rs1 rs2 s
  obtain ⟨v, t, hexec, hwrites, hvalue⟩ := shiftWriteBack_writesRegister .srl rd rs1 rs2 s
  refine ⟨decodeWord_encode (i := .srl rd rs1 rs2) rfl, v, t, hexec, hwrites, fun hin => ?_⟩
  rw [hvalue hin, shiftInRange_srl_toNat]

/-- Settles O17: the oversized case is the one that draws (log 3). -/
theorem oversizedShiftWritesAFreeValue : Obligations.OversizedShiftWritesAFreeValue := by
  intro rd rs1 rs2 s
  refine ⟨fun hover => ?oversized, fun hin => ?inRange⟩
  case oversized =>
    have draws (op : ShiftOp) : ∃ t, shiftWriteBack op rd rs1 rs2 s = .next t ∧ t.draws = s.draws + 1 ∧
        WritesRegister rd (Config.shiftOversize op (s.reg rs1) (s.reg rs2) s.draws) s t :=
      ⟨_, shiftWriteBack_oversized hover op rd rs1, rfl, s.nextDraw_setReg_writesRegister rd _⟩
    exact ⟨draws .sll, draws .srl⟩
  case inRange =>
    have draws_nothing (op : ShiftOp) : ∃ t, shiftWriteBack op rd rs1 rs2 s = .next t ∧ t.draws = s.draws :=
      ⟨_, shiftWriteBack_inRange hin op rd rs1, rfl⟩
    exact ⟨draws_nothing .sll, draws_nothing .srl⟩

end Sys2Proof.Machine

/-! PROOF. Load and store (42_load_store.md). Each obligation splits at the bound of the access: in bounds a load is
`Memory.read32` and a store `Memory.write32`, whose laws (Laws/Memory) give the bytes and values; out of bounds both only raise. -/

namespace Sys2Proof.Machine

/-! ### Accesses out of bounds -/

theorem exec_ldr_outOfBounds {rs1 : Reg} {s : State} (rd : Reg) (n : Nibble)
    (hb : Config.memSize ≤ (s.reg rs1).toNat + 3) :
    exec (.ldr rd rs1 n) s = .next (s.raise (.outOfBounds .load (s.reg rs1).toNat)) := by
  rw [exec_ldr, if_neg (Nat.not_lt_of_le hb)]

theorem exec_str_outOfBounds {rd : Reg} {s : State} (rs1 : Reg) (n : Nibble)
    (hb : Config.memSize ≤ (s.reg rd).toNat + 3) :
    exec (.str rd rs1 n) s = .next (s.raise (.outOfBounds .store (s.reg rd).toNat)) := by
  rw [exec_str, if_neg (Nat.not_lt_of_le hb)]

/-! ### The bytes of a stored word -/

/-- The four bytes of a stored word, the most significant at the lowest address (R43). -/
theorem Memory.bytes_of_write32 (m : Memory) (a : Nat) (v : Word) :
    (m.write32 a v).get a = v.extractLsb 31 24 ∧ (m.write32 a v).get (a + 1) = v.extractLsb 23 16 ∧
      (m.write32 a v).get (a + 2) = v.extractLsb 15 8 ∧ (m.write32 a v).get (a + 3) = v.extractLsb 7 0 := by
  simp [Memory.get_write32, BitVec.extractLsb]

/-- A memory whose four bytes from `a` on are those of a stored word reads as that word there (R58). -/
theorem Memory.read32_of_bytes_stored {m n : Memory} {a : Nat} {v : Word}
    (h : ∀ k, k < 4 → n.get (a + k) = (m.write32 a v).get (a + k)) : n.read32 a = v :=
  (Memory.read32_congr h).trans (Memory.read32_write32 m a v)

/-! ### The obligations on LDR and STR -/

/-- Settles O18, by whether the four bytes are in memory (R48, R120). -/
theorem ldrLoadsBigEndianWord : Obligations.LdrLoadsBigEndianWord := by
  intro rd rs1 n s
  refine ⟨decodeWord_encode (i := .ldr rd rs1 n) rfl, fun hin => ?inBounds, fun hout => ?outOfBounds⟩
  case inBounds =>
    exact ⟨_, _, exec_ldr_inBounds rd n hin, s.mem.read32_toNat (s.reg rs1).toNat, s.setReg_writesRegister rd _⟩
  case outOfBounds => exact ⟨_, exec_ldr_outOfBounds rd n hout, s.raise_raises _⟩

/-- Settles O19, by whether the four bytes are in memory (R48, R121). -/
theorem strStoresBigEndianWord : Obligations.StrStoresBigEndianWord := by
  intro rd rs1 n s
  refine ⟨decodeWord_encode (i := .str rd rs1 n) rfl, rfl, fun hin => ?inBounds, fun hout => ?outOfBounds⟩
  case inBounds =>
    obtain ⟨hbyte0, hbyte1, hbyte2, hbyte3⟩ := s.mem.bytes_of_write32 (s.reg rd).toNat (s.reg rs1)
    exact ⟨_, exec_str_inBounds rs1 n hin, hbyte0, hbyte1, hbyte2, hbyte3,
      fun _ hother => s.mem.get_write32_other _ hother, fun _ => rfl, rfl, rfl, rfl⟩
  case outOfBounds => exact ⟨_, exec_str_outOfBounds rs1 n hout, s.raise_raises _⟩

/-- Settles O20: the address in bounds for the store is in bounds for the load, and the word read there is the one stored
(R58); the core that a store out of bounds leaves has ended (R195). -/
theorem loadReturnsTheWordStored : Obligations.LoadReturnsTheWordStored := by
  intro rd rs1 n s
  refine ⟨fun hin => ?inBounds, fun hout => ?outOfBounds⟩
  case inBounds =>
    have hb : (s.reg rd).toNat + 3 < Config.memSize := Nat.lt_of_le_of_lt (Nat.add_le_add_right hin 3) (by decide)
    refine ⟨_, exec_str_inBounds rs1 n hb, fun u qd q1 m haddr hbytes => ?_⟩
    have hload : exec (.ldr qd q1 m) u = .next (u.setReg qd (u.mem.read32 (s.reg rd).toNat)) := by
      rw [← haddr] at hb ⊢
      exact exec_ldr_inBounds qd m hb
    rw [Memory.read32_of_bytes_stored hbytes] at hload
    exact ⟨_, hload, u.setReg_writesRegister qd _⟩
  case outOfBounds => exact ⟨_, exec_str_outOfBounds rs1 n (by omega), rfl, step_ended nofun⟩

end Sys2Proof.Machine

/-! PROOF. Control (43_control.md). A branch is taken or not, and a taken one sets `pc` alone; what it runs next, or raises, is
then what a step does at that `pc` (`step_fetched`, `step_fetch_fault`). HALT leaves an ended state. -/

namespace Sys2Proof.Machine

/-! ### The two cases of a branch (R140) -/

theorem exec_beq_taken {rs1 rs2 : Reg} {s : State} (h : s.reg rs1 = s.reg rs2) (rd : Reg) :
    exec (.beq rd rs1 rs2) s = .next (s.setPc (s.reg rd)) := by
  rw [exec_beq, if_pos h]

theorem exec_beq_notTaken {rs1 rs2 : Reg} {s : State} (h : s.reg rs1 ≠ s.reg rs2) (rd : Reg) :
    exec (.beq rd rs1 rs2) s = .next s := by
  rw [exec_beq, if_neg h]

/-- The step of a core about to run a taken branch: the target replaces the `pc` that fetch advanced (R86). -/
theorem State.AboutToRun.step_beq_taken {s : State} {rd rs1 rs2 : Reg} (h : s.AboutToRun (encode (.beq rd rs1 rs2)))
    (heq : s.reg rs1 = s.reg rs2) : step s = .next (s.setPc (s.reg rd)) := by
  rw [h.step_eq, decodeWord_encode rfl]
  exact exec_beq_taken (s := s.advance) heq rd

/-! ### The step after a jump -/

/-- The running core at a `pc` inside memory runs the word there, at any alignment (R47, R141). -/
theorem step_setPc_inMemory {s : State} {p : Word} (hrun : s.status = .running) (hp : p.toNat + 1 < Config.memSize) :
    step (s.setPc p) = exec (decodeWord (s.mem.get p.toNat ++ s.mem.get (p.toNat + 1))) (s.setPc p).advance :=
  step_fetched (s := s.setPc p) hrun hp

/-- The running core at a `pc` outside memory raises the fetch exception with that address (R49, R163). -/
theorem step_setPc_outsideMemory {s : State} {p : Word} (hrun : s.status = .running)
    (hp : Config.memSize ≤ p.toNat + 1) :
    step (s.setPc p) = .next ((s.setPc p).raise (.outOfBounds .fetch p.toNat)) :=
  step_fetch_fault (s := s.setPc p) hrun (Nat.not_lt_of_le hp)

/-! ### Runs that stand still -/

/-- A state that steps to itself is where every run of it stands (R196). -/
theorem run_of_step_self {s : State} (h : step s = .next s) (fuel : Nat) : run fuel s = .next s := by
  induction fuel with
  | zero => rfl
  | succ fuel ih => rw [run_succ fuel h, ih]

/-! ### The obligations on BEQ and HALT -/

/-- Settles O23, by whether the branch is taken. -/
theorem beqCopiesItsTarget : Obligations.BeqCopiesItsTarget := by
  intro rd rs1 rs2 s
  refine ⟨decodeWord_encode (i := .beq rd rs1 rs2) rfl, ?_⟩
  by_cases heq : s.reg rs1 = s.reg rs2
  · refine ⟨_, exec_beq_taken heq rd, (if_pos heq).symm, fun _ => rfl, fun _ => rfl, ⟨rfl, rfl⟩, ?_⟩
    intro hrun _ hout
    exact ⟨_, step_setPc_outsideMemory hrun hout, State.raise_raises _ _⟩
  · exact ⟨_, exec_beq_notTaken heq rd, (if_neg heq).symm, fun _ => rfl, fun _ => rfl, ⟨rfl, rfl⟩,
      fun _ htaken _ => absurd htaken heq⟩

/-- Settles O24 (R141, R142). -/
theorem takenBranchTargetRunsNext : Obligations.TakenBranchTargetRunsNext := by
  intro s rd rs1 rs2 h heq htarget
  exact ⟨_, h.step_beq_taken heq, rfl, step_setPc_inMemory h.running htarget⟩

/-- Settles O25: a target equal to `pc` makes the taken branch a step from the state to itself. -/
theorem branchToItselfNeverEnds : Obligations.BranchToItselfNeverEnds := by
  intro s rd rs1 rs2 h heq hself
  have hstep : step s = .next s := by
    calc step s
      _ = .next (s.setPc (s.reg rd)) := h.step_beq_taken heq
      _ = .next (s.setPc s.pc) := by rw [hself]
      _ = .next s := rfl
  exact run_of_step_self hstep

/-- Settles O26: the state after HALT has ended, and ended states never move (R144, R195). -/
theorem haltIsTerminal : Obligations.HaltIsTerminal := by
  intro d a b s
  have hended : s.halt.ended := nofun
  exact ⟨decodeWord_encode (i := .halt d a b) rfl, _, exec_halt d a b s, rfl, fun _ => rfl, fun _ => rfl, rfl, rfl,
    fun fuel => ⟨step_ended hended, run_ended hended fuel⟩⟩

end Sys2Proof.Machine

/-! PROOF. Exceptions (60_exceptions.md). An exception is `State.raise`, which changes `status` and `cause` alone
(`State.raise_raises`); which exceptions there are, and when each is raised, is a case split over `StepEffect` and `ExecEffect`
(Laws/Exec). What the host is told of them is `State.report`, of a state that a run keeps within the invariant. -/

namespace Sys2Proof.Machine

/-! ### Every step answers (R160) -/

/-- Settles O9. -/
theorem everyStepAnswersANextState : Obligations.EveryStepAnswersANextState := by
  intro s
  obtain ⟨t, hst, -⟩ := step_effect s
  exact ⟨t, hst⟩

/-! ### The two exceptions before the operands are read (R162, R163) -/

/-- A word of either illegal row raises its opcode (R69, R162). -/
theorem exec_decodeWord_illegal {w : HalfWord} (ho : 11 ≤ (opcodeField w).toNat) (s : State) :
    exec (decodeWord w) s = .next (s.raise (.illegalOpcode (opcodeField w))) := by
  rcases Nat.lt_or_ge (opcodeField w).toNat 12 with hlt | hge
  · have h11 : opcodeField w = 11 := BitVec.eq_of_toNat_eq (Nat.le_antisymm (Nat.le_of_lt_succ hlt) ho)
    rw [decodeWord, h11]
    rfl
  · rw [decodeWord, instrOfFields_of_twelve_le hge, exec_illegalOpcodes12to15]

/-- Settles O27: as a step, the exception is raised in the state that fetch leaves. -/
theorem illegalOpcodeFaults : Obligations.IllegalOpcodeFaults := by
  refine ⟨fun d a b s => ⟨_, exec_illegalOpcode11 d a b s, s.raise_raises _⟩,
    fun o d a b s _ => ⟨_, exec_illegalOpcodes12to15 o d a b s, s.raise_raises _⟩, fun s w h ho => ?step⟩
  case step =>
    have hstep : step s = .next (s.advance.raise (.illegalOpcode (opcodeField w))) :=
      h.step_eq.trans (exec_decodeWord_illegal ho s.advance)
    exact ⟨_, hstep, rfl, rfl, rfl, fun _ => rfl, fun _ => rfl⟩

/-- Settles O28 (R49, R163). -/
theorem fetchOutsideMemoryFaults : Obligations.FetchOutsideMemoryFaults := by
  intro s hrun hout
  exact ⟨_, step_fetch_fault hrun (Nat.not_lt_of_le hout), s.raise_raises _⟩

/-! ### Precise exceptions (R167) -/

/-- An instruction of the running core that faults has raised one of three exceptions, and done nothing else (R162, R164). -/
theorem ExecEffect.of_faulted {o d a b : Nibble} {s t : State} (he : ExecEffect o d a b s t)
    (hrun : s.status = .running) (ht : t.status = .faulted) :
    ∃ c, t = s.raise c ∧
      ((11 ≤ o.toNat ∧ c = .illegalOpcode o) ∨
        (o = 7 ∧ c = .outOfBounds .load (s.reg (regOf a)).toNat) ∨
        (o = 8 ∧ c = .outOfBounds .store (s.reg (regOf d)).toNat)) := by
  have running (h : t.status = s.status) : t.status ≠ .faulted := by rw [h, hrun]; nofun
  cases he with
  | illegal ho => exact ⟨_, rfl, .inl ⟨ho, rfl⟩⟩
  | loadFault ho => exact ⟨_, rfl, .inr (.inl ⟨BitVec.eq_of_toNat_eq ho, rfl⟩)⟩
  | storeFault ho => exact ⟨_, rfl, .inr (.inr ⟨BitVec.eq_of_toNat_eq ho, rfl⟩)⟩
  | halt => exact nomatch ht
  | alu | draw | load | store | taken | notTaken => exact absurd ht (running rfl)

/-- Settles O29: a fault is raised in the state before the step where its fetch fails, and otherwise in the one fetch leaves. -/
theorem exceptionsArePrecise : Obligations.ExceptionsArePrecise := by
  intro s hrun
  obtain ⟨t, hst, he⟩ := step_effect s
  refine ⟨t, hst, fun ht => ?_⟩
  cases he with
  | ended h => exact absurd hrun h
  | fetchFault _ hf => exact ⟨fun _ => rfl, fun _ => rfl, .inl ⟨hf, rfl, rfl⟩⟩
  | executed _ hf he =>
    obtain ⟨c, rfl, hcause⟩ := he.of_faulted hrun ht
    refine ⟨fun _ => rfl, fun _ => rfl, .inr ?_⟩
    rcases hcause with ⟨ho, rfl⟩ | ⟨ho, rfl⟩ | ⟨ho, rfl⟩
    · exact .inl ⟨hf, ho, rfl, rfl⟩
    · exact .inr (.inl ⟨hf, ho, rfl, rfl⟩)
    · exact .inr (.inr ⟨hf, ho, rfl, rfl⟩)

/-! ### The order of the checks (R166) -/

/-- `status` and `cause` after an instruction with opcode `o`, address registers `d` (STR) and `a` (LDR), from the running
state `s`; `ExecEffect.status_cause_eq` says that `exec` leaves these. -/
def statusAndCause (o d a : Nibble) (s : State) : Status × Option Cause :=
  if 11 ≤ o.toNat then (.faulted, some (.illegalOpcode o))
  else if o = 7 ∧ Config.memSize ≤ (s.reg (regOf a)).toNat + 3 then
    (.faulted, some (.outOfBounds .load (s.reg (regOf a)).toNat))
  else if o = 8 ∧ Config.memSize ≤ (s.reg (regOf d)).toNat + 3 then
    (.faulted, some (.outOfBounds .store (s.reg (regOf d)).toNat))
  else if o = 10 then (.halted, s.cause)
  else (.running, s.cause)

theorem statusAndCause_illegal {o : Nibble} (ho : 11 ≤ o.toNat) (d a : Nibble) (s : State) :
    statusAndCause o d a s = (.faulted, some (.illegalOpcode o)) := if_pos ho

theorem statusAndCause_loadFault {a : Nibble} {s : State} (d : Nibble)
    (hb : Config.memSize ≤ (s.reg (regOf a)).toNat + 3) :
    statusAndCause 7 d a s = (.faulted, some (.outOfBounds .load (s.reg (regOf a)).toNat)) := by
  simp [statusAndCause, hb]

theorem statusAndCause_storeFault {d : Nibble} {s : State} (a : Nibble)
    (hb : Config.memSize ≤ (s.reg (regOf d)).toNat + 3) :
    statusAndCause 8 d a s = (.faulted, some (.outOfBounds .store (s.reg (regOf d)).toNat)) := by
  simp [statusAndCause, hb]

theorem statusAndCause_halt (d a : Nibble) (s : State) : statusAndCause 10 d a s = (.halted, s.cause) := rfl

/-- An instruction that is neither HALT nor illegal, and whose access is in bounds, leaves the core running (R145). -/
theorem statusAndCause_running {o d a : Nibble} {s : State} (ho : o.toNat ≤ 9)
    (hload : o.toNat = 7 → (s.reg (regOf a)).toNat + 3 < Config.memSize)
    (hstore : o.toNat = 8 → (s.reg (regOf d)).toNat + 3 < Config.memSize) :
    statusAndCause o d a s = (.running, s.cause) := by
  have hillegal : ¬ 11 ≤ o.toNat := by omega
  have hhalt : o ≠ 10 := by rintro rfl; exact absurd ho (by decide)
  have hloadBound : ¬ (o = 7 ∧ Config.memSize ≤ (s.reg (regOf a)).toNat + 3) := by
    rintro ⟨rfl, hb⟩
    exact Nat.not_lt_of_le hb (hload rfl)
  have hstoreBound : ¬ (o = 8 ∧ Config.memSize ≤ (s.reg (regOf d)).toNat + 3) := by
    rintro ⟨rfl, hb⟩
    exact Nat.not_lt_of_le hb (hstore rfl)
  rw [statusAndCause, if_neg hillegal, if_neg hloadBound, if_neg hstoreBound, if_neg hhalt]

theorem ExecEffect.status_cause_eq {o d a b : Nibble} {s t : State} (he : ExecEffect o d a b s t)
    (hrun : s.status = .running) : (t.status, t.cause) = statusAndCause o d a s := by
  have same (h : statusAndCause o d a s = (.running, s.cause)) :
      (s.status, s.cause) = statusAndCause o d a s := by rw [h, hrun]
  cases he with
  | illegal ho => exact (statusAndCause_illegal ho d a s).symm
  | loadFault ho hb =>
    obtain rfl : o = 7 := BitVec.eq_of_toNat_eq ho
    exact (statusAndCause_loadFault d (Nat.le_of_not_lt hb)).symm
  | storeFault ho hb =>
    obtain rfl : o = 8 := BitVec.eq_of_toNat_eq ho
    exact (statusAndCause_storeFault a (Nat.le_of_not_lt hb)).symm
  | halt ho =>
    obtain rfl : o = 10 := BitVec.eq_of_toNat_eq ho
    exact (statusAndCause_halt d a s).symm
  | load _ hb | store _ hb => exact same (statusAndCause_running (by omega) (by omega) (by omega))
  | alu | draw | taken | notTaken => exact same (statusAndCause_running (by omega) (by omega) (by omega))

/-- Settles O30: the fetch bound comes first, and what the instruction does is `statusAndCause`. -/
theorem statusAndCauseOfEveryStep : Obligations.StatusAndCauseOfEveryStep := by
  intro s hrun
  obtain ⟨t, hst, he⟩ := step_effect s
  refine ⟨t, hst, ?_⟩
  cases he with
  | ended h => exact absurd hrun h
  | fetchFault _ hf => exact (if_pos (Nat.le_of_not_lt hf)).symm
  | executed _ hf he => exact (he.status_cause_eq hrun).trans (if_neg (Nat.not_le_of_lt hf)).symm

/-! ### The termination report (R171) -/

theorem State.runEnd_running {s : State} (h : s.status = .running) : s.runEnd = none := by
  rw [State.runEnd, h]

theorem State.runEnd_halted {s : State} (h : s.status = .halted) : s.runEnd = some .success := by
  rw [State.runEnd, h]

theorem State.runEnd_faulted {s : State} {c : Cause} (h : s.status = .faulted) (hc : s.cause = some c) :
    s.runEnd = some (.failure c) := by
  rw [State.runEnd, h, hc]
  rfl

theorem State.report_stillRunning {s : State} (h : s.runEnd = none) : s.report = .stillRunning := by
  rw [State.report, h]

theorem State.report_ended {s : State} {e : RunEnd} (h : s.runEnd = some e) : s.report = .ended e s.snapshot := by
  rw [State.report, h]

/-- In `Faulted` the invariant gives a fault report (R20). -/
theorem State.Inv.exists_cause {s : State} (h : s.Inv) (hs : s.status = .faulted) : ∃ c, s.cause = some c :=
  Option.isSome_iff_exists.mp (h.cause_present.mpr hs)

/-- Settles O49. -/
theorem reportDistinguishesTheOutcomes : Obligations.ReportDistinguishesTheOutcomes := by
  intro s h
  refine ⟨fun hs => State.report_stillRunning (State.runEnd_running hs),
    fun hs => State.report_ended (State.runEnd_halted hs), fun hs => ?faulted⟩
  case faulted =>
    obtain ⟨c, hc⟩ := h.exists_cause hs
    exact ⟨c, hc, State.report_ended (State.runEnd_faulted hs hc)⟩

/-- A state with the invariant that has ended has an outcome (R197). -/
theorem State.Inv.exists_runEnd {s : State} (h : s.Inv) (hended : s.ended) : ∃ e, s.runEnd = some e := by
  cases hs : s.status with
  | running => exact absurd hs hended
  | halted => exact ⟨_, State.runEnd_halted hs⟩
  | faulted =>
    obtain ⟨c, hc⟩ := h.exists_cause hs
    exact ⟨_, State.runEnd_faulted hs hc⟩

/-! ### Runs (R196) -/

/-- Every run answers a state. -/
theorem run_answers (fuel : Nat) (s : State) : ∃ t, run fuel s = .next t := by
  induction fuel generalizing s with
  | zero => exact ⟨s, rfl⟩
  | succ fuel ih =>
    obtain ⟨u, hu⟩ := everyStepAnswersANextState s
    rw [run_succ fuel hu]
    exact ih u

/-- What every step keeps, every run keeps. -/
theorem run_keeps {P : State → Prop} (hP : ∀ s t, P s → step s = .next t → P t) {fuel : Nat} {s t : State} (hs : P s)
    (h : run fuel s = .next t) : P t := by
  induction fuel generalizing s with
  | zero =>
    injection h with h
    exact h ▸ hs
  | succ fuel ih =>
    obtain ⟨u, hu⟩ := everyStepAnswersANextState s
    rw [run_succ fuel hu] at h
    exact ih (hP s u hs hu) h

/-- A run with further fuel goes on from where the run stood. -/
theorem run_add {k : Nat} {s t : State} (h : run k s = .next t) (j : Nat) : run (k + j) s = run j t := by
  induction k generalizing s with
  | zero =>
    injection h with h
    rw [h, Nat.zero_add]
  | succ k ih =>
    obtain ⟨u, hu⟩ := everyStepAnswersANextState s
    rw [run_succ k hu] at h
    rw [Nat.add_right_comm, run_succ (k + j) hu, ih h]

/-- The end of a run stays the outcome under all further fuel (R197). -/
theorem EndsAfter.run_add_eq {k : Nat} {s t : State} (h : EndsAfter k s t) (j : Nat) : run (k + j) s = .next t :=
  (run_add h.reached j).trans (run_ended h.ended j)

theorem hostRun_eq {fuel : Nat} {s t : State} (h : run fuel s = .next t) : hostRun fuel s = .next (t, t.report) := by
  rw [hostRun, h]

/-- Settles O47: the end of the run has the invariant, and so an outcome; before the end the run is `Running` and has none. -/
theorem hostRunReportsTheEnd : Obligations.HostRunReportsTheEnd := by
  intro k s t hinv hend
  refine ⟨fun j => ?atTheEnd, fun j hj => ?before⟩
  case atTheEnd =>
    have ht : t.Inv := run_keeps everyStepKeepsTheInvariant hinv hend.reached
    obtain ⟨e, he⟩ := ht.exists_runEnd hend.ended
    have hhost := hostRun_eq (hend.run_add_eq j)
    rw [State.report_ended he] at hhost
    exact ⟨e, he, hhost⟩
  case before =>
    obtain ⟨u, hu⟩ := run_answers j s
    have hrunning : u.status = .running := hend.first j u hj hu
    have hhost := hostRun_eq hu
    rw [State.report_stillRunning (State.runEnd_running hrunning)] at hhost
    exact ⟨u, hu, hrunning, hhost⟩

end Sys2Proof.Machine

/-! PROOF. Runs, the host and determinism (70_reset_and_hazards.md). The host's loop is the machine stepped, and the end of a run
is where it stands from then on. A step is a function of the core's own state, but for the values drawn: `IgnoresDraws` says it of
one operation, is shown of each instruction, and passes from the instruction to the step. -/

namespace Sys2Proof.Machine

/-! ### Draws (R201, log 3) -/

/-- The same core with another draw counter: the model's own field is the only one that differs (log 3). -/
def State.withDraws (s : State) (d : Nat) : State := { s with draws := d }

/-- From `s` the operation `f` draws nothing and does the same whatever the draw counter is. -/
def IgnoresDraws (f : State → Outcome) (s : State) : Prop :=
  ∃ t, f s = .next t ∧ t.draws = s.draws ∧ ∀ d, f (s.withDraws d) = .next (t.withDraws d)

theorem shiftWriteBack_ignoresDraws {s : State} {rs2 : Reg} (h : (s.reg rs2).toNat < 32) (op : ShiftOp) (rd rs1 : Reg) :
    IgnoresDraws (shiftWriteBack op rd rs1 rs2) s :=
  ⟨_, shiftWriteBack_inRange h op rd rs1, rfl, fun d => shiftWriteBack_inRange (s := s.withDraws d) h op rd rs1⟩

theorem exec_ldr_ignoresDraws (rd rs1 : Reg) (n : Nibble) (s : State) : IgnoresDraws (exec (.ldr rd rs1 n)) s := by
  rcases Nat.lt_or_ge ((s.reg rs1).toNat + 3) Config.memSize with hin | hout
  · exact ⟨_, exec_ldr_inBounds rd n hin, rfl, fun d => exec_ldr_inBounds (s := s.withDraws d) rd n hin⟩
  · exact ⟨_, exec_ldr_outOfBounds rd n hout, rfl, fun d => exec_ldr_outOfBounds (s := s.withDraws d) rd n hout⟩

theorem exec_str_ignoresDraws (rd rs1 : Reg) (n : Nibble) (s : State) : IgnoresDraws (exec (.str rd rs1 n)) s := by
  rcases Nat.lt_or_ge ((s.reg rd).toNat + 3) Config.memSize with hin | hout
  · exact ⟨_, exec_str_inBounds rs1 n hin, rfl, fun d => exec_str_inBounds (s := s.withDraws d) rs1 n hin⟩
  · exact ⟨_, exec_str_outOfBounds rs1 n hout, rfl, fun d => exec_str_outOfBounds (s := s.withDraws d) rs1 n hout⟩

theorem exec_beq_ignoresDraws (rd rs1 rs2 : Reg) (s : State) : IgnoresDraws (exec (.beq rd rs1 rs2)) s := by
  by_cases heq : s.reg rs1 = s.reg rs2
  · exact ⟨_, exec_beq_taken heq rd, rfl, fun d => exec_beq_taken (s := s.withDraws d) heq rd⟩
  · exact ⟨_, exec_beq_notTaken heq rd, rfl, fun d => exec_beq_notTaken (s := s.withDraws d) heq rd⟩

/-- Only an oversized shift looks at the draw counter or moves it (R108). -/
theorem exec_ignoresDraws {i : Instr} {s : State}
    (h : i.opcode = 5 ∨ i.opcode = 6 → (s.reg (regOf i.operandFields.2.2)).toNat < 32) : IgnoresDraws (exec i) s := by
  cases i with
  | sll rd rs1 rs2 =>
    have hin : (s.reg rs2).toNat < 32 := by simpa [Instr.operandFields] using h (.inl rfl)
    exact shiftWriteBack_ignoresDraws hin .sll rd rs1
  | srl rd rs1 rs2 =>
    have hin : (s.reg rs2).toNat < 32 := by simpa [Instr.operandFields] using h (.inr rfl)
    exact shiftWriteBack_ignoresDraws hin .srl rd rs1
  | ldr rd rs1 n => exact exec_ldr_ignoresDraws rd rs1 n s
  | str rd rs1 n => exact exec_str_ignoresDraws rd rs1 n s
  | beq rd rs1 rs2 => exact exec_beq_ignoresDraws rd rs1 rs2 s
  | add | sub | and | or | xor | halt | illegalOpcode11 | illegalOpcodes12to15 =>
    exact ⟨_, rfl, rfl, fun _ => rfl⟩

/-- A step ignores the draw counter where the instruction it runs does: the two cores fetch the same word. -/
theorem step_ignoresDraws {s : State}
    (h : s.canFetch → IgnoresDraws (exec (decodeWord s.nextWord)) s.advance) : IgnoresDraws step s := by
  by_cases hrun : s.status = .running
  · by_cases hf : s.canFetch
    · obtain ⟨t, ht, hdraws, hother⟩ := h hf
      exact ⟨t, (step_fetched hrun hf).trans ht, hdraws,
        fun d => (step_fetched (s := s.withDraws d) hrun hf).trans (hother d)⟩
    · exact ⟨_, step_fetch_fault hrun hf, rfl, fun d => step_fetch_fault (s := s.withDraws d) hrun hf⟩
  · exact ⟨s, step_ended hrun, rfl, fun d => step_ended (s := s.withDraws d) hrun⟩

/-- Settles O40: the fields of the word at `pc` are those of the instruction decoded from it. -/
theorem onlyOversizedShiftsDependOnDraws : Obligations.OnlyOversizedShiftsDependOnDraws := by
  intro s d h
  have hexec (hf : s.canFetch) : IgnoresDraws (exec (decodeWord s.nextWord)) s.advance :=
    exec_ignoresDraws (by rw [opcode_decodeWord, decodeWord, operandFields_instrOfFields]; exact h hf)
  obtain ⟨t, hst, hdraws, hother⟩ := step_ignoresDraws hexec
  exact ⟨t, hst, hdraws, hother d⟩

/-! ### The run loop (R196) -/

/-- One more step of the machine, for a state that steps to `t`: `run_succ` of the interface's loop. -/
theorem coreRun_succ {s t : State} (k : Nat) (h : step s = .next t) :
    Host.Core.run Sys2Proof.core (k + 1) s = Host.Core.run Sys2Proof.core k t := by
  have hcore : Sys2Proof.core.step s = .next t := h
  simp only [Host.Core.run, hcore]

/-- Settles O45, by induction on the fuel: the two loops take the same step, which outside `Running` is none (R195). -/
theorem runIsTheMachineSteppedThatOften : Obligations.RunIsTheMachineSteppedThatOften := by
  intro fuel
  induction fuel with
  | zero => exact fun _ => rfl
  | succ fuel ih =>
    intro s
    obtain ⟨t, hst⟩ := everyStepAnswersANextState s
    rw [run_succ fuel hst, coreRun_succ fuel hst, ih]

/-! ### The end of a run (R197) -/

/-- No run has ended before its end. -/
theorem EndsAfter.le {k k' : Nat} {s t t' : State} (h : EndsAfter k s t) (h' : EndsAfter k' s t') : k ≤ k' := by
  by_contra hlt
  exact h'.ended (h.first k' t' (Nat.lt_of_not_le hlt) h'.reached)

/-- Settles O46: each of two ends comes no later than the other. -/
theorem runEndIsUniqueAndFinal : Obligations.RunEndIsUniqueAndFinal := by
  intro k s t h
  refine ⟨h.run_add_eq, fun k' t' h' => ?_⟩
  obtain rfl : k' = k := Nat.le_antisymm (h'.le h) (h.le h')
  have hsame := h'.reached
  rw [h.reached] at hsame
  injection hsame with hsame
  exact ⟨rfl, hsame.symm⟩

/-- Whatever the fuel, a run that ends stands in a running state or at its end. -/
theorem EndsAfter.running_or_eq {k fuel : Nat} {s t u : State} (h : EndsAfter k s t) (hu : run fuel s = .next u) :
    u.status = .running ∨ u = t := by
  rcases Nat.lt_or_ge fuel k with hbefore | hafter
  · exact .inl (h.first fuel u hbefore hu)
  · have hend := h.run_add_eq (fuel - k)
    rw [Nat.add_sub_cancel' hafter, hu] at hend
    injection hend with hend
    exact .inr hend

/-- Settles O48: the end is the only state of the run that can be `Faulted`, and an end is `Halted` or `Faulted`. -/
theorem endedRunIsSafeExactlyWhenHalted : Obligations.EndedRunIsSafeExactlyWhenHalted := by
  intro k s t h
  refine ⟨fun hsafe => ?halted, fun hhalted fuel u hu => ?safe⟩
  case halted =>
    cases ht : t.status with
    | running => exact absurd ht h.ended
    | halted => rfl
    | faulted => exact absurd ht (hsafe k t h.reached)
  case safe =>
    rcases h.running_or_eq hu with hrun | rfl
    · rw [hrun]; nofun
    · rw [hhalted]; nofun

/-! ### The host's `step` and `read_memory` (R195) -/

theorem hostStep_eq {s t : State} (h : step s = .next t) : hostStep s = .next (t, t.snapshot) := by
  rw [hostStep, h]

theorem State.readMemory_inBounds (s : State) {addr n : Nat} (h : addr + n ≤ Config.memSize) :
    s.readMemory addr n = some ((List.range n).map fun k => s.mem.get (addr + k)) := by
  rw [State.readMemory, inBounds, if_pos (decide_eq_true h)]

/-- Settles O50. -/
theorem hostStepsAndReads : Obligations.HostStepsAndReads := by
  refine ⟨fun s => ?step, fun s addr n h => ⟨_, s.readMemory_inBounds h, ?length, fun k hk => ?byte⟩⟩
  case step =>
    obtain ⟨t, hst⟩ := everyStepAnswersANextState s
    exact ⟨t, hst, hostStep_eq hst, fun _ => rfl, rfl, rfl, rfl⟩
  case length => rw [List.length_map, List.length_range]
  case byte => rw [List.getElem_map, List.getElem_range]

end Sys2Proof.Machine
